-- ==== Sys2Proof/Word.lean ====
section
/-! DEFINITION. The words of the core: fixed widths of spec/00_scope.md R7, all bit vectors numbered from bit 0 (R9). -/

namespace Sys2Proof

/-- A 32-bit word: an instruction, a register value, an ALU operand or result (R7). -/
abbrev Word := BitVec 32

/-- A 5-bit register index; the index space covers the 32 registers exactly (20_memory.md R41). -/
abbrev RegIndex := BitVec 5

/-- The 12-bit immediate field instr[31:20] (30_encoding.md R51). -/
abbrev Imm12 := BitVec 12

/-- The 5-bit shift amount (30_encoding.md R56). -/
abbrev ShiftAmount := BitVec 5

/-- The 7-bit opcode field instr[6:0] (30_encoding.md R51). -/
abbrev Opcode := BitVec 7

/-- The 3-bit funct3 field instr[14:12] (30_encoding.md R51). -/
abbrev Funct3 := BitVec 3

end Sys2Proof
end

