-- ==== Sys2Proof/Config.lean ====
section
/-! DEFINITION. What is fixed for the machine (the two ALU opcodes), the driver's interface to a step, and the free
values: the two named parameters of spec/00_scope.md R8 and the inputs nobody supplied. A free value is an opaque
constant, so no proof can learn what it is. -/

namespace Sys2Proof

/-- The inputs of one step (10_state.md R25): the instruction word, reset and enable. Both controls are active high
(decision D3, log entry 10) and every input is stable for the whole step (47_step.md R221). -/
structure StepInput where
  /-- `instr_in[31:0]` -/
  instrIn : Word
  /-- `rst`, synchronous reset -/
  rst : Bool
  /-- `en`, enable -/
  en : Bool
  deriving DecidableEq, Repr, Inhabited

/-- The two readings of the `alu_result` output for a non-ALU word with enable high (42_alu.md R139, D7). -/
inductive NonAluResult where
  /-- the ALU's result on that word's fields -/
  | ungated
  /-- 0x00000000 -/
  | zero
  deriving DecidableEq, Repr, Inhabited

namespace Config

/-- The immediate-arithmetic opcode 0b0010011 (30_encoding.md R58). -/
def opcodeImm : Opcode := 0b0010011#7

/-- The register-arithmetic opcode 0b0110011 (30_encoding.md R58). -/
def opcodeReg : Opcode := 0b0110011#7

/-- `NONALU_RESULT` (00_scope.md R8, D7): left open by the spec, a free value (log entry 3). -/
opaque nonAluResult : NonAluResult

/-- `POWER_ON_STATE`, the latch (10_state.md R32, D5): a free value (log entry 4). -/
opaque powerOnLatch : Word

/-- `POWER_ON_STATE`, register cells X[1..31], cell k being X[k+1] (10_state.md R32, D5): free values (log entry 4). -/
opaque powerOnCell : Fin 31 → Word

/-- The inputs of the steps that no supplied input covers, numbered from 0 (47_step.md R227 says nothing about
them): free values (log entry 2). -/
opaque driver : Nat → StepInput

end Config

end Sys2Proof
end

