-- ==== Sys2Proof/Syntax.lean ====
section
/-! DEFINITION. The instructions: one constructor per row of spec/opcode_table.json, in the table's order
(30_encoding.md R60). `ignored` holds the bits a row does not decode (R57, R61), highest bit first: instr[31:25] where
instr[30] is not decoded either, and instr[31] followed by instr[29:25] where instr[30] is. They make the encoding
lossless and have no effect (log entry 13). -/

namespace Sys2Proof

inductive Instr where
  -- register-immediate, opcode 0b0010011 (43_op_imm.md)
  | addi  (rd rs1 : RegIndex) (imm : Imm12)
  | slti  (rd rs1 : RegIndex) (imm : Imm12)
  | sltiu (rd rs1 : RegIndex) (imm : Imm12)
  | xori  (rd rs1 : RegIndex) (imm : Imm12)
  | ori   (rd rs1 : RegIndex) (imm : Imm12)
  | andi  (rd rs1 : RegIndex) (imm : Imm12)
  | slli  (rd rs1 : RegIndex) (shamt : ShiftAmount) (ignored : BitVec 7)
  | srli  (rd rs1 : RegIndex) (shamt : ShiftAmount) (ignored : BitVec 6)
  | srai  (rd rs1 : RegIndex) (shamt : ShiftAmount) (ignored : BitVec 6)
  -- register-register, opcode 0b0110011 (44_op.md)
  | add   (rd rs1 rs2 : RegIndex) (ignored : BitVec 6)
  | sub   (rd rs1 rs2 : RegIndex) (ignored : BitVec 6)
  | sll   (rd rs1 rs2 : RegIndex) (ignored : BitVec 7)
  | slt   (rd rs1 rs2 : RegIndex) (ignored : BitVec 7)
  | sltu  (rd rs1 rs2 : RegIndex) (ignored : BitVec 7)
  | xor   (rd rs1 rs2 : RegIndex) (ignored : BitVec 7)
  | srl   (rd rs1 rs2 : RegIndex) (ignored : BitVec 6)
  | sra   (rd rs1 rs2 : RegIndex) (ignored : BitVec 6)
  | or    (rd rs1 rs2 : RegIndex) (ignored : BitVec 7)
  | and   (rd rs1 rs2 : RegIndex) (ignored : BitVec 7)
  /-- Every word whose opcode is neither ALU opcode (45_non_alu.md R190), held whole. -/
  | nopOther (word : Word)
  deriving DecidableEq, Repr

end Sys2Proof
end

