-- ==== Sys2Proof/WellFormed.lean ====
section
/-! DEFINITION. Which instruction terms stand for a word. Field widths are in the types, so one check is left: the
no-op class holds only words whose opcode is neither ALU opcode (45_non_alu.md R190). -/

namespace Sys2Proof

/-- Does the word's opcode, instr[6:0], select an ALU instruction (30_encoding.md R58)? -/
def isAluWord (w : Word) : Bool :=
  w.extractLsb' 0 7 == Config.opcodeImm || w.extractLsb' 0 7 == Config.opcodeReg

/-- The check on an instruction term, one arm per constructor. -/
def Instr.wellFormed : Instr → Bool
  | .addi _ _ _ => true
  | .slti _ _ _ => true
  | .sltiu _ _ _ => true
  | .xori _ _ _ => true
  | .ori _ _ _ => true
  | .andi _ _ _ => true
  | .slli _ _ _ _ => true
  | .srli _ _ _ _ => true
  | .srai _ _ _ _ => true
  | .add _ _ _ _ => true
  | .sub _ _ _ _ => true
  | .sll _ _ _ _ => true
  | .slt _ _ _ _ => true
  | .sltu _ _ _ _ => true
  | .xor _ _ _ _ => true
  | .srl _ _ _ _ => true
  | .sra _ _ _ _ => true
  | .or _ _ _ _ => true
  | .and _ _ _ _ => true
  | .nopOther w => !isAluWord w

end Sys2Proof
end

