-- ==== Sys2Proof/Decode.lean ====
section
/-! DEFINITION. The instruction decoder, total on 32-bit words (no word is illegal, 30_encoding.md R62), the opcode
table of R60 as data, and the encoder written from the same layouts (R51 to R54). -/

namespace Sys2Proof

/-! ### The field layout (30_encoding.md R51) -/

/-- opcode = instr[6:0] -/
def fOpcode (w : Word) : Opcode := w.extractLsb' 0 7
/-- rd = instr[11:7] -/
def fRd (w : Word) : RegIndex := w.extractLsb' 7 5
/-- funct3 = instr[14:12] -/
def fFunct3 (w : Word) : Funct3 := w.extractLsb' 12 3
/-- rs1 = instr[19:15] -/
def fRs1 (w : Word) : RegIndex := w.extractLsb' 15 5
/-- rs2 = instr[24:20]; the same bits are the shift amount of the shift-immediate forms (R54) -/
def fRs2 (w : Word) : RegIndex := w.extractLsb' 20 5
/-- imm12 = instr[31:20] -/
def fImm12 (w : Word) : Imm12 := w.extractLsb' 20 12
/-- mode = instr[30] = imm12[10] (R52, R57) -/
def fMode (w : Word) : Bool := w.getLsbD 30
/-- instr[31:25], the bits not decoded where mode is not read (R57) -/
def fIgnored7 (w : Word) : BitVec 7 := w.extractLsb' 25 7
/-- instr[31] ++ instr[29:25], the bits not decoded where mode is read (R57) -/
def fIgnored6 (w : Word) : BitVec 6 := w.extractLsb' 31 1 ++ w.extractLsb' 25 5

/-! ### The ALU operation code (30_encoding.md R59, 42_alu.md R135) -/

/-- The closed 8-value enumeration of ALU operations. -/
inductive AluOp where
  | add | sll | slt | sltu | xor | sr | or | and
  deriving DecidableEq, Repr

/-- The operation a funct3 value selects (R59, decision D2, log entry 8). The eight codes fill the 3-bit space, so
there is no unlisted code and the zero default of 42_alu.md R136 has no arm (D15, log entry 15). -/
def AluOp.ofBits (f : Funct3) : AluOp :=
  if f = 0b000#3 then .add
  else if f = 0b001#3 then .sll
  else if f = 0b010#3 then .slt
  else if f = 0b011#3 then .sltu
  else if f = 0b100#3 then .xor
  else if f = 0b101#3 then .sr
  else if f = 0b110#3 then .or
  else .and

/-- The funct3 code of an operation (R59). -/
def AluOp.toBits : AluOp → Funct3
  | .add => 0b000#3
  | .sll => 0b001#3
  | .slt => 0b010#3
  | .sltu => 0b011#3
  | .xor => 0b100#3
  | .sr => 0b101#3
  | .or => 0b110#3
  | .and => 0b111#3

/-! ### The decoder -/

/-- A word with the immediate-arithmetic opcode (30_encoding.md R53, R54, R59): mode is read by the right shifts
only. -/
def decodeImm (w : Word) : Instr :=
  match AluOp.ofBits (fFunct3 w) with
  | .add => .addi (fRd w) (fRs1 w) (fImm12 w)
  | .sll => .slli (fRd w) (fRs1 w) (fRs2 w) (fIgnored7 w)
  | .slt => .slti (fRd w) (fRs1 w) (fImm12 w)
  | .sltu => .sltiu (fRd w) (fRs1 w) (fImm12 w)
  | .xor => .xori (fRd w) (fRs1 w) (fImm12 w)
  | .sr =>
    if fMode w then .srai (fRd w) (fRs1 w) (fRs2 w) (fIgnored6 w)
    else .srli (fRd w) (fRs1 w) (fRs2 w) (fIgnored6 w)
  | .or => .ori (fRd w) (fRs1 w) (fImm12 w)
  | .and => .andi (fRd w) (fRs1 w) (fImm12 w)

/-- A word with the register-arithmetic opcode (30_encoding.md R52, R59): mode is read by ADD/SUB and the right
shifts only. -/
def decodeReg (w : Word) : Instr :=
  match AluOp.ofBits (fFunct3 w) with
  | .add =>
    if fMode w then .sub (fRd w) (fRs1 w) (fRs2 w) (fIgnored6 w)
    else .add (fRd w) (fRs1 w) (fRs2 w) (fIgnored6 w)
  | .sll => .sll (fRd w) (fRs1 w) (fRs2 w) (fIgnored7 w)
  | .slt => .slt (fRd w) (fRs1 w) (fRs2 w) (fIgnored7 w)
  | .sltu => .sltu (fRd w) (fRs1 w) (fRs2 w) (fIgnored7 w)
  | .xor => .xor (fRd w) (fRs1 w) (fRs2 w) (fIgnored7 w)
  | .sr =>
    if fMode w then .sra (fRd w) (fRs1 w) (fRs2 w) (fIgnored6 w)
    else .srl (fRd w) (fRs1 w) (fRs2 w) (fIgnored6 w)
  | .or => .or (fRd w) (fRs1 w) (fRs2 w) (fIgnored7 w)
  | .and => .and (fRd w) (fRs1 w) (fRs2 w) (fIgnored7 w)

/-- The instruction a word is (30_encoding.md R58): the two ALU opcodes, and the no-op class for the other 126. -/
def decode (w : Word) : Instr :=
  if fOpcode w = Config.opcodeImm then decodeImm w
  else if fOpcode w = Config.opcodeReg then decodeReg w
  else .nopOther w

/-- Why bits that do not form an instruction word are refused: an instruction is one 32-bit word and there is no
other length (30_encoding.md R50). -/
inductive DecodeError where
  /-- a length beyond 32 bits -/
  | longerThanOneWord
  /-- a bit set above bit 31 -/
  | bitsAboveWord
  deriving DecidableEq, Repr

/-- Bits of a stated length, bit 0 least significant, as an instruction. There is no byte order to apply: the word
enters in parallel (20_memory.md R42, log entry 16). -/
def decodeSized (nbits w : Nat) : Except DecodeError Instr :=
  if 32 < nbits then .error .longerThanOneWord
  else if 2 ^ 32 ≤ w then .error .bitsAboveWord
  else .ok (decode (BitVec.ofNat 32 w))

/-- The instruction the decoder reads from the bits `w` of an opcode-table row; none where it refuses. -/
def decodeTableWord (nbits w : Nat) : Option Instr :=
  (decodeSized nbits w).toOption

/-! ### The opcode table (30_encoding.md R60, R61) -/

/-- One row of the opcode table: the pattern that selects it and its canonical pattern. -/
structure OpcodeRow where
  matchBits : Word
  mask : Word
  canonicalMatch : Word
  canonicalMask : Word
  deriving DecidableEq, Repr

/-- Does the row select the word? -/
def OpcodeRow.selects (r : OpcodeRow) (w : Word) : Bool := w &&& r.mask == r.matchBits

/-- Is the word the row's canonical form (R61)? -/
def OpcodeRow.isCanonical (r : OpcodeRow) (w : Word) : Bool := w &&& r.canonicalMask == r.canonicalMatch

/-- An immediate row: every bit decoded or operand. -/
def immRow (m : Word) : OpcodeRow := ⟨m, 0x0000707F#32, m, 0x0000707F#32⟩
/-- A row that does not read mode and has seven undecoded bits. -/
def plainRow (m : Word) : OpcodeRow := ⟨m, 0x0000707F#32, m, 0xFE00707F#32⟩
/-- A row that reads mode and has six undecoded bits. -/
def modeRow (m : Word) : OpcodeRow := ⟨m, 0x4000707F#32, m, 0xFE00707F#32⟩

/-- The row of an instruction (R60); the no-op class has none. -/
def Instr.row : Instr → Option OpcodeRow
  | .addi _ _ _ => some (immRow 0x00000013#32)
  | .slti _ _ _ => some (immRow 0x00002013#32)
  | .sltiu _ _ _ => some (immRow 0x00003013#32)
  | .xori _ _ _ => some (immRow 0x00004013#32)
  | .ori _ _ _ => some (immRow 0x00006013#32)
  | .andi _ _ _ => some (immRow 0x00007013#32)
  | .slli _ _ _ _ => some (plainRow 0x00001013#32)
  | .srli _ _ _ _ => some (modeRow 0x00005013#32)
  | .srai _ _ _ _ => some (modeRow 0x40005013#32)
  | .add _ _ _ _ => some (modeRow 0x00000033#32)
  | .sub _ _ _ _ => some (modeRow 0x40000033#32)
  | .sll _ _ _ _ => some (plainRow 0x00001033#32)
  | .slt _ _ _ _ => some (plainRow 0x00002033#32)
  | .sltu _ _ _ _ => some (plainRow 0x00003033#32)
  | .xor _ _ _ _ => some (plainRow 0x00004033#32)
  | .srl _ _ _ _ => some (modeRow 0x00005033#32)
  | .sra _ _ _ _ => some (modeRow 0x40005033#32)
  | .or _ _ _ _ => some (plainRow 0x00006033#32)
  | .and _ _ _ _ => some (plainRow 0x00007033#32)
  | .nopOther _ => none

/-- The nine register-immediate rows, in the table's order. -/
def immRows : List OpcodeRow :=
  [immRow 0x00000013#32, immRow 0x00002013#32, immRow 0x00003013#32, immRow 0x00004013#32, immRow 0x00006013#32,
   immRow 0x00007013#32, plainRow 0x00001013#32, modeRow 0x00005013#32, modeRow 0x40005013#32]

/-- The ten register-register rows, in the table's order. -/
def regRows : List OpcodeRow :=
  [modeRow 0x00000033#32, modeRow 0x40000033#32, plainRow 0x00001033#32, plainRow 0x00002033#32,
   plainRow 0x00003033#32, plainRow 0x00004033#32, modeRow 0x00005033#32, modeRow 0x40005033#32,
   plainRow 0x00006033#32, plainRow 0x00007033#32]

/-- The 19 rows of the two ALU opcodes (R60). -/
def aluRows : List OpcodeRow := immRows ++ regRows

/-- `canonical(w)` of decision D16: the word is some row's canonical form, or its opcode is non-ALU. -/
def canonicalWord (w : Word) : Bool := !isAluWord w || aluRows.any (·.isCanonical w)

/-! ### The encoder -/

/-- Assemble the I-type layout (R53). -/
def encodeI (imm : Imm12) (rs1 : RegIndex) (op : AluOp) (rd : RegIndex) : Word :=
  imm ++ rs1 ++ op.toBits ++ rd ++ Config.opcodeImm

/-- Assemble a layout with a seven-bit top field and a five-bit field at instr[24:20] (R52, R54). -/
def encodeR (top : BitVec 7) (f20 rs1 : RegIndex) (op : AluOp) (rd : RegIndex) (opcode : Opcode) : Word :=
  top ++ f20 ++ rs1 ++ op.toBits ++ rd ++ opcode

/-- instr[31:25] from the six undecoded bits and the mode bit (R52, R57). -/
def topWithMode (ignored : BitVec 6) (mode : BitVec 1) : BitVec 7 :=
  ignored.extractLsb' 5 1 ++ mode ++ ignored.extractLsb' 0 5

/-- The word of an instruction (R51 to R54, R60). -/
def encode : Instr → Word
  | .addi rd rs1 imm => encodeI imm rs1 .add rd
  | .slti rd rs1 imm => encodeI imm rs1 .slt rd
  | .sltiu rd rs1 imm => encodeI imm rs1 .sltu rd
  | .xori rd rs1 imm => encodeI imm rs1 .xor rd
  | .ori rd rs1 imm => encodeI imm rs1 .or rd
  | .andi rd rs1 imm => encodeI imm rs1 .and rd
  | .slli rd rs1 shamt g => encodeR g shamt rs1 .sll rd Config.opcodeImm
  | .srli rd rs1 shamt g => encodeR (topWithMode g 0#1) shamt rs1 .sr rd Config.opcodeImm
  | .srai rd rs1 shamt g => encodeR (topWithMode g 1#1) shamt rs1 .sr rd Config.opcodeImm
  | .add rd rs1 rs2 g => encodeR (topWithMode g 0#1) rs2 rs1 .add rd Config.opcodeReg
  | .sub rd rs1 rs2 g => encodeR (topWithMode g 1#1) rs2 rs1 .add rd Config.opcodeReg
  | .sll rd rs1 rs2 g => encodeR g rs2 rs1 .sll rd Config.opcodeReg
  | .slt rd rs1 rs2 g => encodeR g rs2 rs1 .slt rd Config.opcodeReg
  | .sltu rd rs1 rs2 g => encodeR g rs2 rs1 .sltu rd Config.opcodeReg
  | .xor rd rs1 rs2 g => encodeR g rs2 rs1 .xor rd Config.opcodeReg
  | .srl rd rs1 rs2 g => encodeR (topWithMode g 0#1) rs2 rs1 .sr rd Config.opcodeReg
  | .sra rd rs1 rs2 g => encodeR (topWithMode g 1#1) rs2 rs1 .sr rd Config.opcodeReg
  | .or rd rs1 rs2 g => encodeR g rs2 rs1 .or rd Config.opcodeReg
  | .and rd rs1 rs2 g => encodeR g rs2 rs1 .and rd Config.opcodeReg
  | .nopOther w => w

end Sys2Proof
end

