-- ==== Sys2Proof/Machine/State.lean ====
section
/-! DEFINITION. The machine's state: the clocked state of spec/10_state.md R20, and the driver's inputs still to come.
The core has no program counter, flags, control registers, memory, trap or privilege state (R27 to R30,
20_memory.md R40, 60_exceptions.md R240 to R247). -/

namespace Sys2Proof.Machine

/-- The contract violations of the BitWord primitives (60_exceptions.md R243): raised by a malformed construction of
a datapath (Machine/BitWord.lean), never by an instruction, an input or a state, so never by `step`. All are safe:
no value results (log entry 14). -/
inductive Fault where
  /-- A binary primitive was given operands of different widths (40_bitword.md R83). Raised by `BitWord.binary`.
  Safe. -/
  | widthMismatch
  /-- An extension to fewer bits than the operand has (R84, R85). Raised by `BitWord.signExtend`,
  `BitWord.zeroExtend`. Safe. -/
  | extendNarrower
  /-- A slice outside the operand, or with its bounds crossed (R82). Raised by `BitWord.slice`. Safe. -/
  | sliceOutOfRange
  deriving DecidableEq, Repr

/-- What is refused by name. `step` refuses nothing; constructions of a BitWord and assembly source can be refused. -/
inductive Refusal where
  /-- An instruction without a meaning yet. Raised by `exec` only, and by no arm of it. Safe. -/
  | notModelled (mnemonic : String)
  /-- A BitWord of width 0 (40_bitword.md R80). Raised by `BitWord.literal`. Safe. -/
  | zeroWidth
  /-- A literal that does not fit its width (40_bitword.md R81). Raised by `BitWord.literal`. Safe. -/
  | literalOutOfRange
  /-- An immediate outside -2048..2047 (30_encoding.md R65). Raised by `assemble`. Safe. -/
  | immediateOutOfRange
  /-- A shift amount outside 0..31 (30_encoding.md R65). Raised by `assemble`. Safe. -/
  | shiftAmountOutOfRange
  /-- A pseudo-instruction that expands through other opcodes (30_encoding.md R66). Raised by `assemble`. Safe. -/
  | pseudoOutsideSubset
  deriving DecidableEq, Repr

/-- The state. `latch` and `cells` are the spec's (R20); `inputs` and `unsupplied` are the model's own, standing for
the driver outside the core (log entries 1, 2). -/
structure State where
  /-- The instruction latch `L` (R21). -/
  latch : Word
  /-- The register cells: cell k is X[k+1] (R22). x0 is no cell (R23). -/
  cells : Vector Word 31
  /-- The step inputs the driver has supplied, the next one first (47_step.md R226). -/
  inputs : List StepInput
  /-- How many steps were taken after the supplied inputs ran out. -/
  unsupplied : Nat
  deriving DecidableEq, Repr

/-- The state a reset step leaves (70_reset_and_hazards.md R260, R262), with no input supplied yet (log entry 5). -/
def State.reset : State where
  latch := 0x00000000#32
  cells := Vector.replicate 31 0x00000000#32
  inputs := []
  unsupplied := 0

/-- The state at power-on, before the first reset: `POWER_ON_STATE`, unconstrained (10_state.md R32, D5, log
entry 4). -/
def State.powerOn : State where
  latch := Config.powerOnLatch
  cells := Vector.ofFn Config.powerOnCell
  inputs := []
  unsupplied := 0

end Sys2Proof.Machine
end

