-- ==== Sys2Proof/Machine/BitWord.lean ====
section
/-! DEFINITION. The two's-complement primitives of spec/40_bitword.md for every width. `Bits` holds them typed (equal
widths by type, R83), as the core uses them; `BitWord` holds a width with its bits, where the contract violations of
R243 can be written and fail loudly. The signed/unsigned tag is not carried (R80, D13). -/

namespace Sys2Proof.Machine

/-! ### Typed primitives -/

namespace Bits

variable {n m : Nat}

/-- `sext_k` (R84), for k ≥ n: the sign bit fills the new positions. -/
def sext (k : Nat) (v : BitVec n) : BitVec k := v.signExtend k

/-- `zext_k` (R85), for k ≥ n: zeros fill the new positions. -/
def zext (k : Nat) (v : BitVec n) : BitVec k := v.zeroExtend k

/-- The adder (R86): modulo 2^n, the carry out is dropped (R99). -/
def add (a b : BitVec n) : BitVec n := a + b

/-- The subtractor (R87): modulo 2^n, the borrow out is dropped (R99). -/
def sub (a b : BitVec n) : BitVec n := a - b

/-- Bitwise AND (R88). -/
def and (a b : BitVec n) : BitVec n := a &&& b

/-- Bitwise OR (R88). -/
def or (a b : BitVec n) : BitVec n := a ||| b

/-- Bitwise XOR (R88). -/
def xor (a b : BitVec n) : BitVec n := a ^^^ b

/-- Bitwise NOT (R88), used in laws only. -/
def not (a : BitVec n) : BitVec n := ~~~a

/-- Left shift by the amount's unsigned value, zero fill (R89). -/
def shl (a : BitVec n) (s : BitVec m) : BitVec n := a <<< s.toNat

/-- Logical right shift, zero fill (R90). -/
def shr (a : BitVec n) (s : BitVec m) : BitVec n := a >>> s.toNat

/-- Arithmetic right shift, sign fill, also for an amount of the width or more (R91, C10, log entry 20). -/
def sra (a : BitVec n) (s : BitVec m) : BitVec n := a.sshiftRight s.toNat

/-- Unsigned less-than, 1 or 0 at the operand width (R92). -/
def ltu (a b : BitVec n) : BitVec n := zext n (BitVec.ofBool (decide (a.toNat < b.toNat)))

/-- Signed less-than, 1 or 0 at the operand width (R93): unequal signs decide, equal signs compare the patterns,
never inverted (C2, log entry 12). -/
def lts (a b : BitVec n) : BitVec n :=
  zext n (BitVec.ofBool (if a.msb != b.msb then a.msb else decide (a.toNat < b.toNat)))

/-- Equality, a single bit (R95). -/
def eq (a b : BitVec n) : Bool := a == b

end Bits

/-! ### Words that carry their width -/

/-- A bit vector with its declared width (R80). -/
structure BitWord where
  width : Nat
  bits : BitVec width
  deriving DecidableEq, Repr

namespace BitWord

/-- Widths are at least 1 (R80, D12). -/
def wf (a : BitWord) : Bool := decide (1 ≤ a.width)

/-- `lit_n(v)` (R81): v in 0..2^n - 1 or in -2^(n-1)..-1; anything else is refused, as is width 0 (R80). -/
def literal (n : Nat) (v : Int) : Host.Outcome BitWord Fault Refusal :=
  if n = 0 then .refused .zeroWidth
  else if -(2 ^ (n - 1) : Int) ≤ v ∧ v < 2 ^ n then .next ⟨n, BitVec.ofInt n v⟩
  else .refused .literalOutOfRange

/-- `v[hi:lo]` (R82). -/
def slice (a : BitWord) (hi lo : Nat) : Host.Outcome BitWord Fault Refusal :=
  if hi < a.width ∧ lo ≤ hi then .next ⟨hi - lo + 1, a.bits.extractLsb hi lo⟩
  else .fault .sliceOutOfRange

/-- `signExtend(m)` (R84). -/
def signExtend (m : Nat) (a : BitWord) : Host.Outcome BitWord Fault Refusal :=
  if m < a.width then .fault .extendNarrower else .next ⟨m, Bits.sext m a.bits⟩

/-- `zeroExtend(m)` (R85). -/
def zeroExtend (m : Nat) (a : BitWord) : Host.Outcome BitWord Fault Refusal :=
  if m < a.width then .fault .extendNarrower else .next ⟨m, Bits.zext m a.bits⟩

/-- A binary primitive: both operands share one width, or it fails loudly (R83, D14). -/
def binary (f : (n : Nat) → BitVec n → BitVec n → BitVec n) (a b : BitWord) :
    Host.Outcome BitWord Fault Refusal :=
  if h : b.width = a.width then .next ⟨a.width, f a.width a.bits (b.bits.cast h)⟩ else .fault .widthMismatch

/-- The adder (R86). -/
def add : BitWord → BitWord → Host.Outcome BitWord Fault Refusal := binary fun _ => Bits.add
/-- The subtractor (R87). -/
def sub : BitWord → BitWord → Host.Outcome BitWord Fault Refusal := binary fun _ => Bits.sub
/-- Bitwise AND (R88). -/
def and : BitWord → BitWord → Host.Outcome BitWord Fault Refusal := binary fun _ => Bits.and
/-- Bitwise OR (R88). -/
def or : BitWord → BitWord → Host.Outcome BitWord Fault Refusal := binary fun _ => Bits.or
/-- Bitwise XOR (R88). -/
def xor : BitWord → BitWord → Host.Outcome BitWord Fault Refusal := binary fun _ => Bits.xor
/-- Bitwise NOT (R88), used in laws only. -/
def not (a : BitWord) : BitWord := ⟨a.width, Bits.not a.bits⟩
/-- Unsigned less-than (R92). -/
def lessThan : BitWord → BitWord → Host.Outcome BitWord Fault Refusal := binary fun _ => Bits.ltu
/-- Signed less-than (R93). -/
def lessThanSigned : BitWord → BitWord → Host.Outcome BitWord Fault Refusal := binary fun _ => Bits.lts

/-- The equality comparator, a one-bit result (R95). -/
def equal (a b : BitWord) : Host.Outcome BitWord Fault Refusal :=
  if h : b.width = a.width then .next ⟨1, BitVec.ofBool (Bits.eq a.bits (b.bits.cast h))⟩ else .fault .widthMismatch

/-- `shiftLeft(amount)` (R89); the amount may have any width. -/
def shiftLeft (a amount : BitWord) : BitWord := ⟨a.width, Bits.shl a.bits amount.bits⟩
/-- `shiftRight(amount)` (R90). -/
def shiftRight (a amount : BitWord) : BitWord := ⟨a.width, Bits.shr a.bits amount.bits⟩
/-- `shiftRightArithmetic(amount)` (R91). -/
def shiftRightArithmetic (a amount : BitWord) : BitWord := ⟨a.width, Bits.sra a.bits amount.bits⟩

/-- `toNumber()` = u(v) (R94). -/
def toNumber (a : BitWord) : Nat := a.bits.toNat
/-- `toSignedNumber()` = s(v) (R94). -/
def toSignedNumber (a : BitWord) : Int := a.bits.toInt

end BitWord

end Sys2Proof.Machine
end

