-- ==== Sys2Proof/Machine/Ops.lean ====
section
/-! DEFINITION. The named operations over the state: selecting and committing a register, the latch, reset, and the
driver's inputs. The core takes no exception and returns from none (spec/60_exceptions.md R240 to R242), so there is
no operation for either; the one event that overrides an instruction is reset (R245). -/

namespace Sys2Proof.Machine

/-! ### Registers -/

/-- Register n of the cells (46_regfile_readmux.md R205): index 0 is the constant zero, index k+1 is cell k, and an
index beyond 31, which five bits cannot hold, gives 0 (R206, log entry 15). -/
def selectRegister (cells : Vector Word 31) : Nat → Word
  | 0 => 0#32
  | k + 1 => (cells[k]?).getD 0#32

/-- x[i] as the ReadMux and the outputs see it (R205, R209). -/
def readReg (s : State) (i : RegIndex) : Word := selectRegister s.cells i.toNat

/-- Commit v to x[i] (R201 to R203): x0 has no write-enable line, so a write to it changes nothing. -/
def writeReg (s : State) (i : RegIndex) (v : Word) : State :=
  match i.toNat with
  | 0 => s
  | k + 1 => { s with cells := s.cells.setIfInBounds k v }

/-! ### The driver's inputs (log entries 1, 2) -/

/-- The input of the step about to happen: the next supplied one, or a free one when none is left. -/
def currentInput (s : State) : StepInput :=
  match s.inputs with
  | p :: _ => p
  | [] => Config.driver s.unsupplied

/-- The same state with the step's input consumed. -/
def advanceInput (s : State) : State :=
  match s.inputs with
  | _ :: ps => { s with inputs := ps }
  | [] => { s with unsupplied := s.unsupplied + 1 }

/-! ### The clock edge -/

/-- Every clocked element at its zero state (70_reset_and_hazards.md R260). -/
def resetEdge (s : State) : State :=
  { s with latch := 0x00000000#32, cells := Vector.replicate 31 0x00000000#32 }

/-- The latch takes a word (41_decoder.md R111). -/
def loadLatch (s : State) (w : Word) : State := { s with latch := w }

/-- The outcome of an instruction with the latch loaded at the same edge; a stop stays a stop. -/
def latchAfter (w : Word) : Host.Outcome State Fault Refusal → Host.Outcome State Fault Refusal
  | .next s => .next (loadLatch s w)
  | .fault f => .fault f
  | .refused r => .refused r

/-- One rising edge with input p, `run` being the latched instruction's effect (47_step.md R220): reset first
(R261), then, with enable, the instruction commits and the latch loads; else the state holds (R224). -/
def clockEdge (run : State → Host.Outcome State Fault Refusal) (p : StepInput) (s : State) :
    Host.Outcome State Fault Refusal :=
  if p.rst then .next (resetEdge s)
  else if p.en then latchAfter p.instrIn (run s)
  else .next s

/-! ### Placing an instruction (log entry 6) -/

/-- The state in which w is latched and the next step is an enabled one that presents the drain word 0x00000013
(47_step.md R226), so that the next step executes w. -/
def placeWord (s : State) (w : Word) : State :=
  { s with latch := w, inputs := ⟨0x00000013#32, false, true⟩ :: s.inputs }

end Sys2Proof.Machine
end

