-- ==== Sys2Proof/Machine/NonAlu.lean ====
section
/-! DEFINITION. Every other opcode (spec/45_non_alu.md): one class, one rule. -/

namespace Sys2Proof.Machine

/-- NOP_OTHER (R190): no register is written, whatever the word's fields hold (R192); the latch loads at the edge as
for every word, in `clockEdge`. Branches, jumps, loads, stores, system words, fences, atomics and floating point are
all this (R191 to R198). -/
def execNopOther (s : State) : Host.Outcome State Fault Refusal := .next s

end Sys2Proof.Machine
end

