-- ==== Sys2Proof/Machine/Operands.lean ====
section
/-! DEFINITION. Operand forms (spec/42_alu.md R131, R132) and the four shapes of instruction over them. -/

namespace Sys2Proof.Machine

/-- The immediate operand sext_32(imm12) (30_encoding.md R55). -/
def immOperand (imm : Imm12) : Word := Bits.sext 32 imm

/-- The register shift amount: bits [4:0] of the rs2 value (30_encoding.md R56, C3). -/
def regShiftAmount (v : Word) : ShiftAmount := v.extractLsb' 0 5

/-- The write of the instruction rules (43_op_imm.md R150, 44_op.md R170): commit v to rd and change nothing else. -/
def commit (rd : RegIndex) (v : Word) (s : State) : Host.Outcome State Fault Refusal := .next (writeReg s rd v)

/-- rd gets f(src1, sext_32(imm)) (R150). -/
def regImm (f : Word → Word → Word) (rd rs1 : RegIndex) (imm : Imm12) (s : State) :
    Host.Outcome State Fault Refusal :=
  commit rd (f (readReg s rs1) (immOperand imm)) s

/-- rd gets f(src1, shamt) (R150, R157 to R159). -/
def shiftImm (f : Word → ShiftAmount → Word) (rd rs1 : RegIndex) (shamt : ShiftAmount) (s : State) :
    Host.Outcome State Fault Refusal :=
  commit rd (f (readReg s rs1) shamt) s

/-- rd gets f(src1, src2) (R170). -/
def regReg (f : Word → Word → Word) (rd rs1 rs2 : RegIndex) (s : State) : Host.Outcome State Fault Refusal :=
  commit rd (f (readReg s rs1) (readReg s rs2)) s

/-- rd gets f(src1, src2[4:0]) (R170, R173, R177, R178). -/
def shiftReg (f : Word → ShiftAmount → Word) (rd rs1 rs2 : RegIndex) (s : State) :
    Host.Outcome State Fault Refusal :=
  commit rd (f (readReg s rs1) (regShiftAmount (readReg s rs2))) s

end Sys2Proof.Machine
end

