-- ==== Sys2Proof/Machine/OpImm.lean ====
section
/-! DEFINITION. The register-immediate instructions (spec/43_op_imm.md), each over the shared shapes of Operands. -/

namespace Sys2Proof.Machine

/-- ADDI (R151); imm[10] is no mode bit here. -/
def execAddi (rd rs1 : RegIndex) (imm : Imm12) (s : State) : Host.Outcome State Fault Refusal :=
  regImm Bits.add rd rs1 imm s

/-- SLTI (R152). -/
def execSlti (rd rs1 : RegIndex) (imm : Imm12) (s : State) : Host.Outcome State Fault Refusal :=
  regImm Bits.lts rd rs1 imm s

/-- SLTIU (R153): the sign-extended immediate, compared unsigned. -/
def execSltiu (rd rs1 : RegIndex) (imm : Imm12) (s : State) : Host.Outcome State Fault Refusal :=
  regImm Bits.ltu rd rs1 imm s

/-- XORI (R154). -/
def execXori (rd rs1 : RegIndex) (imm : Imm12) (s : State) : Host.Outcome State Fault Refusal :=
  regImm Bits.xor rd rs1 imm s

/-- ORI (R155). -/
def execOri (rd rs1 : RegIndex) (imm : Imm12) (s : State) : Host.Outcome State Fault Refusal :=
  regImm Bits.or rd rs1 imm s

/-- ANDI (R156). -/
def execAndi (rd rs1 : RegIndex) (imm : Imm12) (s : State) : Host.Outcome State Fault Refusal :=
  regImm Bits.and rd rs1 imm s

/-- SLLI (R157); instr[31:25] has no effect. -/
def execSlli (rd rs1 : RegIndex) (shamt : ShiftAmount) (s : State) : Host.Outcome State Fault Refusal :=
  shiftImm Bits.shl rd rs1 shamt s

/-- SRLI (R158). -/
def execSrli (rd rs1 : RegIndex) (shamt : ShiftAmount) (s : State) : Host.Outcome State Fault Refusal :=
  shiftImm Bits.shr rd rs1 shamt s

/-- SRAI (R159, C1). -/
def execSrai (rd rs1 : RegIndex) (shamt : ShiftAmount) (s : State) : Host.Outcome State Fault Refusal :=
  shiftImm Bits.sra rd rs1 shamt s

end Sys2Proof.Machine
end

