-- ==== Sys2Proof/Machine/OpReg.lean ====
section
/-! DEFINITION. The register-register instructions (spec/44_op.md), each over the shared shapes of Operands. -/

namespace Sys2Proof.Machine

/-- ADD (R171). -/
def execAdd (rd rs1 rs2 : RegIndex) (s : State) : Host.Outcome State Fault Refusal := regReg Bits.add rd rs1 rs2 s

/-- SUB (R172). -/
def execSub (rd rs1 rs2 : RegIndex) (s : State) : Host.Outcome State Fault Refusal := regReg Bits.sub rd rs1 rs2 s

/-- SLL (R173). -/
def execSll (rd rs1 rs2 : RegIndex) (s : State) : Host.Outcome State Fault Refusal := shiftReg Bits.shl rd rs1 rs2 s

/-- SLT (R174). -/
def execSlt (rd rs1 rs2 : RegIndex) (s : State) : Host.Outcome State Fault Refusal := regReg Bits.lts rd rs1 rs2 s

/-- SLTU (R175). -/
def execSltu (rd rs1 rs2 : RegIndex) (s : State) : Host.Outcome State Fault Refusal := regReg Bits.ltu rd rs1 rs2 s

/-- XOR (R176). -/
def execXor (rd rs1 rs2 : RegIndex) (s : State) : Host.Outcome State Fault Refusal := regReg Bits.xor rd rs1 rs2 s

/-- SRL (R177). -/
def execSrl (rd rs1 rs2 : RegIndex) (s : State) : Host.Outcome State Fault Refusal := shiftReg Bits.shr rd rs1 rs2 s

/-- SRA (R178). -/
def execSra (rd rs1 rs2 : RegIndex) (s : State) : Host.Outcome State Fault Refusal := shiftReg Bits.sra rd rs1 rs2 s

/-- OR (R179). -/
def execOr (rd rs1 rs2 : RegIndex) (s : State) : Host.Outcome State Fault Refusal := regReg Bits.or rd rs1 rs2 s

/-- AND (R180). -/
def execAnd (rd rs1 rs2 : RegIndex) (s : State) : Host.Outcome State Fault Refusal := regReg Bits.and rd rs1 rs2 s

end Sys2Proof.Machine
end

