-- ==== Sys2Proof/Machine/Dispatch.lean ====
section
/-! DEFINITION. The effect of an instruction that executes (enable high, reset low), one arm per constructor. -/

namespace Sys2Proof.Machine

def exec (i : Instr) (s : State) : Host.Outcome State Fault Refusal :=
  match i with
  -- register-immediate
  | .addi rd rs1 imm => Sys2Proof.Machine.execAddi rd rs1 imm s
  | .slti rd rs1 imm => Sys2Proof.Machine.execSlti rd rs1 imm s
  | .sltiu rd rs1 imm => Sys2Proof.Machine.execSltiu rd rs1 imm s
  | .xori rd rs1 imm => Sys2Proof.Machine.execXori rd rs1 imm s
  | .ori rd rs1 imm => Sys2Proof.Machine.execOri rd rs1 imm s
  | .andi rd rs1 imm => Sys2Proof.Machine.execAndi rd rs1 imm s
  | .slli rd rs1 shamt _ => Sys2Proof.Machine.execSlli rd rs1 shamt s
  | .srli rd rs1 shamt _ => Sys2Proof.Machine.execSrli rd rs1 shamt s
  | .srai rd rs1 shamt _ => Sys2Proof.Machine.execSrai rd rs1 shamt s
  -- register-register
  | .add rd rs1 rs2 _ => Sys2Proof.Machine.execAdd rd rs1 rs2 s
  | .sub rd rs1 rs2 _ => Sys2Proof.Machine.execSub rd rs1 rs2 s
  | .sll rd rs1 rs2 _ => Sys2Proof.Machine.execSll rd rs1 rs2 s
  | .slt rd rs1 rs2 _ => Sys2Proof.Machine.execSlt rd rs1 rs2 s
  | .sltu rd rs1 rs2 _ => Sys2Proof.Machine.execSltu rd rs1 rs2 s
  | .xor rd rs1 rs2 _ => Sys2Proof.Machine.execXor rd rs1 rs2 s
  | .srl rd rs1 rs2 _ => Sys2Proof.Machine.execSrl rd rs1 rs2 s
  | .sra rd rs1 rs2 _ => Sys2Proof.Machine.execSra rd rs1 rs2 s
  | .or rd rs1 rs2 _ => Sys2Proof.Machine.execOr rd rs1 rs2 s
  | .and rd rs1 rs2 _ => Sys2Proof.Machine.execAnd rd rs1 rs2 s
  -- every other opcode
  | .nopOther _ => Sys2Proof.Machine.execNopOther s

end Sys2Proof.Machine
end

