-- ==== Sys2Proof/Machine/Step.lean ====
section
/-! DEFINITION. One step: one clock period ending at one rising edge (spec/47_step.md R220, R221). -/

namespace Sys2Proof.Machine

/-- One step of the core on its next input: the latched word is decoded and runs if enable is high and reset low; all
clocked elements commit together (20_memory.md R46). -/
def step (s : State) : Host.Outcome State Fault Refusal :=
  clockEdge (exec (decode s.latch)) (currentInput s) (advanceInput s)

/-- The state in which the next step runs the word w. The core has no fetch: an instruction runs from the latch, in
an enabled step (47_step.md R223), so the latch and the next input are what it takes (log entry 6). Every instruction
is one 32-bit word, so the row's bit count changes nothing. -/
def State.withFetchWord (s : State) (_nbits w : Nat) : State := placeWord s (BitVec.ofNat 32 w)

end Sys2Proof.Machine
end

