-- ==== Sys2Proof/Machine/Assembler.lean ====
section
/-! DEFINITION. The assembler's side of the encoding (spec/30_encoding.md R61, R65 to R68): source lines as terms (no
text, log entry 18), the ranges it refuses outside of, the canonical undecoded bits, and the pseudo-instructions. -/

namespace Sys2Proof.Machine

/-- The mnemonics of the register form (R65). -/
inductive RegMnemonic where
  | add | sub | sll | slt | sltu | xor | srl | sra | or | and
  deriving DecidableEq, Repr

/-- The mnemonics of the immediate form (R65). -/
inductive ImmMnemonic where
  | addi | slti | sltiu | xori | ori | andi
  deriving DecidableEq, Repr

/-- The mnemonics of the shift-immediate form (R65). -/
inductive ShiftMnemonic where
  | slli | srli | srai
  deriving DecidableEq, Repr

/-- The pseudo-instructions R66 names as expanding through other opcodes. -/
inductive OtherPseudo where
  | j | ret | call | beqz | la | csrr
  deriving DecidableEq, Repr

/-- One line of source: the three forms of R65 and the pseudo-instructions of R66. Immediates are the integers the
source writes. -/
inductive SourceLine where
  | reg (m : RegMnemonic) (rd rs1 rs2 : RegIndex)
  | imm (m : ImmMnemonic) (rd rs1 : RegIndex) (imm : Int)
  | shift (m : ShiftMnemonic) (rd rs1 : RegIndex) (shamt : Int)
  | nop
  | li (rd : RegIndex) (imm : Int)
  | mv (rd rs : RegIndex)
  | not (rd rs : RegIndex)
  | neg (rd rs : RegIndex)
  | seqz (rd rs : RegIndex)
  | snez (rd rs : RegIndex)
  | sltz (rd rs : RegIndex)
  | sgtz (rd rs : RegIndex)
  | other (p : OtherPseudo)
  deriving DecidableEq, Repr

/-- The canonical register-form instruction: undecoded bits zero (R61). -/
def assembleReg (m : RegMnemonic) (rd rs1 rs2 : RegIndex) : Instr :=
  match m with
  | .add => .add rd rs1 rs2 0#6
  | .sub => .sub rd rs1 rs2 0#6
  | .sll => .sll rd rs1 rs2 0#7
  | .slt => .slt rd rs1 rs2 0#7
  | .sltu => .sltu rd rs1 rs2 0#7
  | .xor => .xor rd rs1 rs2 0#7
  | .srl => .srl rd rs1 rs2 0#6
  | .sra => .sra rd rs1 rs2 0#6
  | .or => .or rd rs1 rs2 0#7
  | .and => .and rd rs1 rs2 0#7

/-- The immediate-form instruction on its 12-bit field. -/
def assembleImm (m : ImmMnemonic) (rd rs1 : RegIndex) (imm : Imm12) : Instr :=
  match m with
  | .addi => .addi rd rs1 imm
  | .slti => .slti rd rs1 imm
  | .sltiu => .sltiu rd rs1 imm
  | .xori => .xori rd rs1 imm
  | .ori => .ori rd rs1 imm
  | .andi => .andi rd rs1 imm

/-- The canonical shift-immediate instruction: undecoded bits zero (R61). -/
def assembleShift (m : ShiftMnemonic) (rd rs1 : RegIndex) (shamt : ShiftAmount) : Instr :=
  match m with
  | .slli => .slli rd rs1 shamt 0#7
  | .srli => .srli rd rs1 shamt 0#6
  | .srai => .srai rd rs1 shamt 0#6

/-- The immediate's 12-bit pattern; out of range it is refused, never wrapped (R65, R67). -/
def assembleImmChecked (m : ImmMnemonic) (rd rs1 : RegIndex) (imm : Int) : Host.Outcome Instr Fault Refusal :=
  if -2048 ≤ imm ∧ imm ≤ 2047 then .next (assembleImm m rd rs1 (BitVec.ofInt 12 imm))
  else .refused .immediateOutOfRange

/-- The shift amount's 5-bit pattern; out of range it is refused (R65). -/
def assembleShiftChecked (m : ShiftMnemonic) (rd rs1 : RegIndex) (shamt : Int) : Host.Outcome Instr Fault Refusal :=
  if 0 ≤ shamt ∧ shamt ≤ 31 then .next (assembleShift m rd rs1 (BitVec.ofInt 5 shamt))
  else .refused .shiftAmountOutOfRange

/-- The instruction of a source line (R65, R66). -/
def assemble : SourceLine → Host.Outcome Instr Fault Refusal
  | .reg m rd rs1 rs2 => .next (assembleReg m rd rs1 rs2)
  | .imm m rd rs1 imm => assembleImmChecked m rd rs1 imm
  | .shift m rd rs1 shamt => assembleShiftChecked m rd rs1 shamt
  | .nop => assembleImmChecked .addi 0#5 0#5 0
  | .li rd imm => assembleImmChecked .addi rd 0#5 imm
  | .mv rd rs => assembleImmChecked .addi rd rs 0
  | .not rd rs => assembleImmChecked .xori rd rs (-1)
  | .neg rd rs => .next (assembleReg .sub rd 0#5 rs)
  | .seqz rd rs => assembleImmChecked .sltiu rd rs 1
  | .snez rd rs => .next (assembleReg .sltu rd 0#5 rs)
  | .sltz rd rs => .next (assembleReg .slt rd rs 0#5)
  | .sgtz rd rs => .next (assembleReg .slt rd 0#5 rs)
  | .other _ => .refused .pseudoOutsideSubset

/-- The toolchain's ABI register names (R68); they have no meaning in this hardware. -/
inductive AbiName where
  | zero | ra | sp | gp | tp | t0 | t1 | t2 | s0 | fp | s1
  | a0 | a1 | a2 | a3 | a4 | a5 | a6 | a7
  | s2 | s3 | s4 | s5 | s6 | s7 | s8 | s9 | s10 | s11
  | t3 | t4 | t5 | t6
  deriving DecidableEq, Repr

/-- The register an ABI name stands for (R68). -/
def AbiName.index : AbiName → RegIndex
  | .zero => 0#5
  | .ra => 1#5
  | .sp => 2#5
  | .gp => 3#5
  | .tp => 4#5
  | .t0 => 5#5
  | .t1 => 6#5
  | .t2 => 7#5
  | .s0 => 8#5
  | .fp => 8#5
  | .s1 => 9#5
  | .a0 => 10#5
  | .a1 => 11#5
  | .a2 => 12#5
  | .a3 => 13#5
  | .a4 => 14#5
  | .a5 => 15#5
  | .a6 => 16#5
  | .a7 => 17#5
  | .s2 => 18#5
  | .s3 => 19#5
  | .s4 => 20#5
  | .s5 => 21#5
  | .s6 => 22#5
  | .s7 => 23#5
  | .s8 => 24#5
  | .s9 => 25#5
  | .s10 => 26#5
  | .s11 => 27#5
  | .t3 => 28#5
  | .t4 => 29#5
  | .t5 => 30#5
  | .t6 => 31#5

end Sys2Proof.Machine
end

