-- ==== Sys2Proof/Machine/BitLaws.lean ====
section
/-! DEFINITION. The laws of spec/40_bitword.md R98 that the primitives of `BitWord` must satisfy, one definition a line
of the rule, in the rule's own terms (`toNumber` is u, `toSignedNumber` is s), for words of every width n ≥ 1. The first
two are the source's testable properties; the rest the spec infers. -/

namespace Sys2Proof.Machine.BitWord

/-- Wraparound: (a.add(b)).toNumber() = (a.toNumber() + b.toNumber()) mod 2^n. -/
def WraparoundLaw : Prop :=
  ∀ a b : BitWord, a.wf = true → a.width = b.width →
    ∃ r, a.add b = .next r ∧ r.width = a.width ∧ r.toNumber = (a.toNumber + b.toNumber) % 2 ^ a.width

/-- Sign-extension round trip: v.signExtend(m).toSignedNumber() = v.toSignedNumber() for m ≥ n. -/
def SignExtensionRoundTripLaw : Prop :=
  ∀ (v : BitWord) (m : Nat), v.wf = true → v.width ≤ m →
    ∃ r, v.signExtend m = .next r ∧ r.width = m ∧ r.toSignedNumber = v.toSignedNumber

/-- u(sub(a, b)) = (u(a) - u(b)) mod 2^n, and sub(a, b) = add(a, add(not(b), lit_n(1))). -/
def SubtractionLaw : Prop :=
  ∀ a b : BitWord, a.wf = true → a.width = b.width →
    ∃ r one negated, a.sub b = .next r ∧ (r.toNumber : Int) = ((a.toNumber : Int) - b.toNumber) % 2 ^ a.width ∧
      literal b.width 1 = .next one ∧ b.not.add one = .next negated ∧ a.add negated = .next r

/-- u(zext_m(v)) = u(v), and sext_m(v)[m-1:n-1] is all copies of v[n-1], for m ≥ n. -/
def ExtensionLaw : Prop :=
  ∀ (v : BitWord) (m : Nat), v.wf = true → v.width ≤ m →
    (∃ r, v.zeroExtend m = .next r ∧ r.toNumber = v.toNumber) ∧
    ∃ r top, v.signExtend m = .next r ∧ r.slice (m - 1) (v.width - 1) = .next top ∧ top.width = m - v.width + 1 ∧
      ∀ j < top.width, top.bits.getLsbD j = v.bits.getLsbD (v.width - 1)

/-- For an amount k < n: u(shl(a, k)) = (u(a) * 2^k) mod 2^n, u(shr(a, k)) = floor(u(a) / 2^k) and
s(sra(a, k)) = floor(s(a) / 2^k). -/
def ShiftLaw : Prop :=
  ∀ a amount : BitWord, a.wf = true → amount.wf = true → amount.toNumber < a.width →
    (a.shiftLeft amount).toNumber = a.toNumber * 2 ^ amount.toNumber % 2 ^ a.width ∧
    (a.shiftRight amount).toNumber = a.toNumber / 2 ^ amount.toNumber ∧
    (a.shiftRightArithmetic amount).toSignedNumber = Int.fdiv a.toSignedNumber (2 ^ amount.toNumber)

/-- ltu(a, b) = 1 iff u(a) < u(b), lts(a, b) = 1 iff s(a) < s(b), and both are 0 when a = b. -/
def OrderLaw : Prop :=
  ∀ a b : BitWord, a.wf = true → a.width = b.width →
    ∃ u s, a.lessThan b = .next u ∧ a.lessThanSigned b = .next s ∧
      (u.toNumber = 1 ↔ a.toNumber < b.toNumber) ∧ (s.toNumber = 1 ↔ a.toSignedNumber < b.toSignedNumber) ∧
      (a = b → u.toNumber = 0 ∧ s.toNumber = 0)

end Sys2Proof.Machine.BitWord
end

