-- ==== Sys2Proof/Machine/Flags.lean ====
section
/-! DEFINITION. The core has no flags and no condition codes (spec/10_state.md R28, 42_alu.md R138). What stands here
are the carry and borrow chains inside the adder and the subtractor (40_bitword.md R86, R87), whose last value the
hardware drops (R99); they are used to say what those two primitives do bit by bit, and no state holds them. -/

namespace Sys2Proof.Machine

variable {n : Nat}

/-- The carry into bit i of `add a b` (R86); the carry out of the top bit is `carryInto a b n`. -/
def carryInto (a b : BitVec n) : Nat → Bool
  | 0 => false
  | i + 1 => (a.getLsbD i && b.getLsbD i) || (carryInto a b i && (a.getLsbD i ^^ b.getLsbD i))

/-- The borrow into bit i of `sub a b` (R87); the borrow out of the top bit is `borrowInto a b n`. -/
def borrowInto (a b : BitVec n) : Nat → Bool
  | 0 => false
  | i + 1 => (!a.getLsbD i && b.getLsbD i) || (!(a.getLsbD i ^^ b.getLsbD i) && borrowInto a b i)

end Sys2Proof.Machine
end

