-- ==== Sys2Proof/Machine/Datapath.lean ====
section
/-! DEFINITION. The block's components as the spec wires them (spec/47_step.md R220): the decoder's combinational
outputs, the ReadMux, the ALU, the write-enable demultiplexer, the register cells and the outputs. It is written from
the component rules, apart from the instruction meanings of OpImm and OpReg, so that the two can be held against each
other. -/

namespace Sys2Proof.Machine

/-! ### The decoder (41_decoder.md) -/

/-- The record of decoder outputs (R113). -/
structure DecodedControl where
  aluEnable : Bool
  aluImmediateMode : Bool
  opcode : Opcode
  rs1Index : RegIndex
  rs2Index : RegIndex
  rdIndex : RegIndex
  imm12 : Imm12
  func3 : Funct3
  deriving DecidableEq, Repr

/-- Every output at zero. -/
def DecodedControl.off : DecodedControl := ⟨false, false, 0#7, 0#5, 0#5, 0#5, 0#12, 0#3⟩

/-- `Decode(L, en)` (R112 to R118): raw fields of the latched word, forced to zero while enable is low. Reset does
not gate it (R121, D8, log entry 11). -/
def decodeControl (latch : Word) (en : Bool) : DecodedControl :=
  if en then
    { aluEnable := Bits.eq (fOpcode latch) Config.opcodeImm || Bits.eq (fOpcode latch) Config.opcodeReg
      aluImmediateMode := Bits.eq (fOpcode latch) Config.opcodeImm
      opcode := fOpcode latch
      rs1Index := fRs1 latch
      rs2Index := fRs2 latch
      rdIndex := fRd latch
      imm12 := fImm12 latch
      func3 := fFunct3 latch }
  else .off

/-! ### The ALU (42_alu.md) -/

/-- operand2 (R131). -/
def operand2 (rs2 : Word) (imm : Imm12) (i2sel : Bool) : Word := if i2sel then Bits.sext 32 imm else rs2

/-- shiftAmount (R132). -/
def shiftAmount (rs2 : Word) (imm : Imm12) (i2sel : Bool) : ShiftAmount :=
  if i2sel then imm.extractLsb' 0 5 else rs2.extractLsb' 0 5

/-- mode = imm[10] (R133). -/
def modeBit (imm : Imm12) : Bool := imm.getLsbD 10

/-- The ALU (R134): ADD reads mode in register mode only, SR in both modes (C1). -/
def alu (rs1 rs2 : Word) (imm : Imm12) (i2sel : Bool) (op : Funct3) : Word :=
  match AluOp.ofBits op with
  | .add =>
    if i2sel then Bits.add rs1 (operand2 rs2 imm i2sel)
    else if modeBit imm then Bits.sub rs1 (operand2 rs2 imm i2sel)
    else Bits.add rs1 (operand2 rs2 imm i2sel)
  | .sll => Bits.shl rs1 (shiftAmount rs2 imm i2sel)
  | .slt => Bits.lts rs1 (operand2 rs2 imm i2sel)
  | .sltu => Bits.ltu rs1 (operand2 rs2 imm i2sel)
  | .xor => Bits.xor rs1 (operand2 rs2 imm i2sel)
  | .sr =>
    if modeBit imm then Bits.sra rs1 (shiftAmount rs2 imm i2sel) else Bits.shr rs1 (shiftAmount rs2 imm i2sel)
  | .or => Bits.or rs1 (operand2 rs2 imm i2sel)
  | .and => Bits.and rs1 (operand2 rs2 imm i2sel)

/-- The ALU wired to the decoder and the two ReadMux ports (R130, 46_regfile_readmux.md R205). -/
def aluOfControl (d : DecodedControl) (cells : Vector Word 31) : Word :=
  alu (selectRegister cells d.rs1Index.toNat) (selectRegister cells d.rs2Index.toNat) d.imm12 d.aluImmediateMode
    d.func3

/-! ### The register file (46_regfile_readmux.md) -/

/-- The write-enable line of register k+1 (R202); register 0 has none (R203). -/
def writeEnable (d : DecodedControl) (k : Fin 31) : Bool :=
  d.aluEnable && Bits.eq d.rdIndex (BitVec.ofNat 5 (k.val + 1))

/-- A cell at the edge (R201): reset, else write-enable, else hold. -/
def cellNext (rst we : Bool) (result old : Word) : Word := if rst then 0#32 else if we then result else old

/-- The latch at the edge (41_decoder.md R111): reset, else enable, else hold. -/
def latchNext (p : StepInput) (old : Word) : Word := if p.rst then 0#32 else if p.en then p.instrIn else old

/-! ### The step and the outputs (47_step.md R220) -/

/-- The step of R220 over the whole state, the input consumed. -/
def datapathStep (p : StepInput) (s : State) : State :=
  let d := decodeControl s.latch p.en
  let result := aluOfControl d s.cells
  { advanceInput s with
    latch := latchNext p s.latch
    cells := Vector.ofFn fun k : Fin 31 => cellNext p.rst (writeEnable d k) result s.cells[k] }

/-- The outputs readable during a step (10_state.md R26). -/
structure Outputs where
  aluResult : Word
  regs : Vector Word 32
  deriving DecidableEq, Repr

/-- `alu_result` under either reading of `NONALU_RESULT` (42_alu.md R139). -/
def aluResultOutput (reading : NonAluResult) (en : Bool) (s : State) : Word :=
  let d := decodeControl s.latch en
  if d.aluEnable then aluOfControl d s.cells
  else if !en then 0#32
  else
    match reading with
    | .ungated => aluOfControl d s.cells
    | .zero => 0#32

/-- The outputs of the step about to happen: a function of the state and its input, not state themselves
(10_state.md R31, log entry 17). -/
def outputs (s : State) : Outputs where
  aluResult := aluResultOutput Config.nonAluResult (currentInput s).en s
  regs := Vector.ofFn fun i : Fin 32 => selectRegister s.cells i.val

end Sys2Proof.Machine
end

