-- ==== Sys2Proof/Machine/Driver.lean ====
section
/-! DEFINITION. What a program is for this core: a finite sequence of step inputs (spec/47_step.md R226). A run of it
is `Host.Core.run` from a state that holds the sequence. -/

namespace Sys2Proof.Machine

/-- An enabled step that presents a word. -/
def present (w : Word) : StepInput := ⟨w, false, true⟩

/-- A reset step (R226). -/
def resetInput : StepInput := ⟨0#32, true, false⟩

/-- The canonical driver of a list of words (R226): one reset step, one enabled step a word, one drain step that
presents 0x00000013. -/
def canonicalDriver (ws : List Word) : List StepInput :=
  resetInput :: ws.map present ++ [present 0x00000013#32]

/-- A state with the driver's sequence supplied. -/
def supply (s : State) (ps : List StepInput) : State := { s with inputs := ps }

/-- The state after a word's instruction; a stop, which no word causes, leaves the state. -/
def commitWord (s : State) (w : Word) : State :=
  match exec (decode w) s with
  | .next t => t
  | .fault _ => s
  | .refused _ => s

end Sys2Proof.Machine
end

