-- ==== Sys2Proof/Safety.lean ====
section
/-! DEFINITION. The terms claims are written in: what a safe step is, what an instruction may change, and the two
invariants a driver's sequence keeps. -/

namespace Sys2Proof.Machine

/-- A step is safe when it completes: no fault, no refusal (spec/47_step.md R222). -/
def SafeStep (s : State) : Prop := ∃ t, step s = .next t

/-- The next step executes the latched word: enable high, reset low (43_op_imm.md R150, 44_op.md R170). -/
abbrev Executes (s : State) : Prop := (currentInput s).en = true ∧ (currentInput s).rst = false

/-- t is s with v committed to rd, and nothing else of the state different; with rd = 0 nothing is different at all
(R150, R170). -/
def CommitsOnly (rd : RegIndex) (v : Word) (s t : State) : Prop :=
  (∀ i : RegIndex, readReg t i = if i = rd ∧ rd ≠ 0#5 then v else readReg s i) ∧
  t.latch = s.latch ∧ t.inputs = s.inputs ∧ t.unsupplied = s.unsupplied

/-- The word, executing, asserts the write-enable line of register r (46_regfile_readmux.md R202). -/
def targets (w : Word) (r : RegIndex) : Bool := isAluWord w && fRd w == r

/-- Register r holds v and nothing latched or still to be presented can change it: no reset, no word that targets it
(10_state.md R24). -/
def Sheltered (r : RegIndex) (v : Word) (s : State) : Prop :=
  readReg s r = v ∧ targets s.latch r = false ∧ ∀ p ∈ s.inputs, p.rst = false ∧ targets p.instrIn r = false

/-- The latched word and every supplied word are canonical (decision D16). -/
def CanonicalStream (s : State) : Prop :=
  canonicalWord s.latch = true ∧ ∀ p ∈ s.inputs, canonicalWord p.instrIn = true

/-- k steps of the machine (47_step.md R226), by the host's own run. -/
def runSteps (k : Nat) (s : State) : Host.Outcome State Fault Refusal := Sys2Proof.core.run k s

end Sys2Proof.Machine
end

