-- ==== Sys2Proof/Certificates/Slice0/Obligations.lean ====
section
/-! DEFINITION. The statements for the provers. Each docstring names the rules of spec/ it formalises. -/

open Sys2Proof Sys2Proof.Machine

/-! ### The instructions: decoding, result, frame and completion -/

/-- R151 (43_op_imm.md). ADDI: the row's words decode to it, and on every state it completes, committing
(src1 + sext(imm)) mod 2^32 to rd and changing nothing else; with rd = x0 nothing changes. -/
def Obligations.AddImmediateResult : Prop :=
  (∀ w : Word, w &&& 0x0000707F#32 = 0x00000013#32 →
    decode w = .addi (w.extractLsb' 7 5) (w.extractLsb' 15 5) (w.extractLsb' 20 12)) ∧
  ∀ (rd rs1 : RegIndex) (imm : Imm12) (s : State), ∃ v t, exec (.addi rd rs1 imm) s = .next t ∧
    CommitsOnly rd v s t ∧ (v.toNat : Int) = ((readReg s rs1).toNat + imm.toInt) % 2 ^ 32

/-- R171 (44_op.md). ADD: (src1 + src2) mod 2^32, the undecoded bits without effect. -/
def Obligations.AddRegisterResult : Prop :=
  (∀ w : Word, w &&& 0x4000707F#32 = 0x00000033#32 →
    decode w = .add (w.extractLsb' 7 5) (w.extractLsb' 15 5) (w.extractLsb' 20 5) (fIgnored6 w)) ∧
  ∀ (rd rs1 rs2 : RegIndex) (g : BitVec 6) (s : State), ∃ v t, exec (.add rd rs1 rs2 g) s = .next t ∧
    CommitsOnly rd v s t ∧ v.toNat = ((readReg s rs1).toNat + (readReg s rs2).toNat) % 2 ^ 32

/-- R172 (44_op.md). SUB: (src1 - src2) mod 2^32, selected by instr[30] = 1. -/
def Obligations.SubtractResult : Prop :=
  (∀ w : Word, w &&& 0x4000707F#32 = 0x40000033#32 →
    decode w = .sub (w.extractLsb' 7 5) (w.extractLsb' 15 5) (w.extractLsb' 20 5) (fIgnored6 w)) ∧
  ∀ (rd rs1 rs2 : RegIndex) (g : BitVec 6) (s : State), ∃ v t, exec (.sub rd rs1 rs2 g) s = .next t ∧
    CommitsOnly rd v s t ∧
    (v.toNat : Int) = ((readReg s rs1).toNat - (readReg s rs2).toNat : Int) % 2 ^ 32

/-- R152, R174. SLTI and SLT: 1 when the first operand is less as a two's-complement integer, else 0, also for two
negative operands. -/
def Obligations.SetLessThanSignedResult : Prop :=
  (∀ w : Word, w &&& 0x0000707F#32 = 0x00002013#32 →
    decode w = .slti (w.extractLsb' 7 5) (w.extractLsb' 15 5) (w.extractLsb' 20 12)) ∧
  (∀ (rd rs1 : RegIndex) (imm : Imm12) (s : State), ∃ t, exec (.slti rd rs1 imm) s = .next t ∧
    CommitsOnly rd (if (readReg s rs1).toInt < imm.toInt then 1#32 else 0#32) s t) ∧
  (∀ w : Word, w &&& 0x0000707F#32 = 0x00002033#32 →
    decode w = .slt (w.extractLsb' 7 5) (w.extractLsb' 15 5) (w.extractLsb' 20 5) (w.extractLsb' 25 7)) ∧
  ∀ (rd rs1 rs2 : RegIndex) (g : BitVec 7) (s : State), ∃ t, exec (.slt rd rs1 rs2 g) s = .next t ∧
    CommitsOnly rd (if (readReg s rs1).toInt < (readReg s rs2).toInt then 1#32 else 0#32) s t

/-- R153, R175. SLTIU and SLTU: 1 when the first operand is less as an unsigned pattern, else 0; the immediate is
sign-extended first, so a negative one stands for 2^32 plus itself. -/
def Obligations.SetLessThanUnsignedResult : Prop :=
  (∀ w : Word, w &&& 0x0000707F#32 = 0x00003013#32 →
    decode w = .sltiu (w.extractLsb' 7 5) (w.extractLsb' 15 5) (w.extractLsb' 20 12)) ∧
  (∀ (rd rs1 : RegIndex) (imm : Imm12) (s : State), ∃ t, exec (.sltiu rd rs1 imm) s = .next t ∧
    CommitsOnly rd (if ((readReg s rs1).toNat : Int) < imm.toInt % 2 ^ 32 then 1#32 else 0#32) s t) ∧
  (∀ w : Word, w &&& 0x0000707F#32 = 0x00003033#32 →
    decode w = .sltu (w.extractLsb' 7 5) (w.extractLsb' 15 5) (w.extractLsb' 20 5) (w.extractLsb' 25 7)) ∧
  ∀ (rd rs1 rs2 : RegIndex) (g : BitVec 7) (s : State), ∃ t, exec (.sltu rd rs1 rs2 g) s = .next t ∧
    CommitsOnly rd (if (readReg s rs1).toNat < (readReg s rs2).toNat then 1#32 else 0#32) s t

/-- R154, R176. XORI and XOR, bit by bit; bits 11 to 31 of the sign-extended immediate are imm[11]. -/
def Obligations.ExclusiveOrResult : Prop :=
  (∀ w : Word, w &&& 0x0000707F#32 = 0x00004013#32 →
    decode w = .xori (w.extractLsb' 7 5) (w.extractLsb' 15 5) (w.extractLsb' 20 12)) ∧
  (∀ (rd rs1 : RegIndex) (imm : Imm12) (s : State), ∃ v t, exec (.xori rd rs1 imm) s = .next t ∧
    CommitsOnly rd v s t ∧ ∀ k < 32, v.getLsbD k = ((readReg s rs1).getLsbD k ^^ imm.getLsbD (min k 11))) ∧
  (∀ w : Word, w &&& 0x0000707F#32 = 0x00004033#32 →
    decode w = .xor (w.extractLsb' 7 5) (w.extractLsb' 15 5) (w.extractLsb' 20 5) (w.extractLsb' 25 7)) ∧
  ∀ (rd rs1 rs2 : RegIndex) (g : BitVec 7) (s : State), ∃ v t, exec (.xor rd rs1 rs2 g) s = .next t ∧
    CommitsOnly rd v s t ∧ ∀ k < 32, v.getLsbD k = ((readReg s rs1).getLsbD k ^^ (readReg s rs2).getLsbD k)

/-- R155, R179. ORI and OR, bit by bit. -/
def Obligations.InclusiveOrResult : Prop :=
  (∀ w : Word, w &&& 0x0000707F#32 = 0x00006013#32 →
    decode w = .ori (w.extractLsb' 7 5) (w.extractLsb' 15 5) (w.extractLsb' 20 12)) ∧
  (∀ (rd rs1 : RegIndex) (imm : Imm12) (s : State), ∃ v t, exec (.ori rd rs1 imm) s = .next t ∧
    CommitsOnly rd v s t ∧ ∀ k < 32, v.getLsbD k = ((readReg s rs1).getLsbD k || imm.getLsbD (min k 11))) ∧
  (∀ w : Word, w &&& 0x0000707F#32 = 0x00006033#32 →
    decode w = .or (w.extractLsb' 7 5) (w.extractLsb' 15 5) (w.extractLsb' 20 5) (w.extractLsb' 25 7)) ∧
  ∀ (rd rs1 rs2 : RegIndex) (g : BitVec 7) (s : State), ∃ v t, exec (.or rd rs1 rs2 g) s = .next t ∧
    CommitsOnly rd v s t ∧ ∀ k < 32, v.getLsbD k = ((readReg s rs1).getLsbD k || (readReg s rs2).getLsbD k)

/-- R156, R180. ANDI and AND, bit by bit. -/
def Obligations.BitwiseAndResult : Prop :=
  (∀ w : Word, w &&& 0x0000707F#32 = 0x00007013#32 →
    decode w = .andi (w.extractLsb' 7 5) (w.extractLsb' 15 5) (w.extractLsb' 20 12)) ∧
  (∀ (rd rs1 : RegIndex) (imm : Imm12) (s : State), ∃ v t, exec (.andi rd rs1 imm) s = .next t ∧
    CommitsOnly rd v s t ∧ ∀ k < 32, v.getLsbD k = ((readReg s rs1).getLsbD k && imm.getLsbD (min k 11))) ∧
  (∀ w : Word, w &&& 0x0000707F#32 = 0x00007033#32 →
    decode w = .and (w.extractLsb' 7 5) (w.extractLsb' 15 5) (w.extractLsb' 20 5) (w.extractLsb' 25 7)) ∧
  ∀ (rd rs1 rs2 : RegIndex) (g : BitVec 7) (s : State), ∃ v t, exec (.and rd rs1 rs2 g) s = .next t ∧
    CommitsOnly rd v s t ∧ ∀ k < 32, v.getLsbD k = ((readReg s rs1).getLsbD k && (readReg s rs2).getLsbD k)

/-- R157, R173. SLLI and SLL: src1 times 2 to the amount, modulo 2^32; the register amount is src2 modulo 32. -/
def Obligations.ShiftLeftResult : Prop :=
  (∀ w : Word, w &&& 0x0000707F#32 = 0x00001013#32 →
    decode w = .slli (w.extractLsb' 7 5) (w.extractLsb' 15 5) (w.extractLsb' 20 5) (w.extractLsb' 25 7)) ∧
  (∀ (rd rs1 : RegIndex) (shamt : ShiftAmount) (g : BitVec 7) (s : State), ∃ v t,
    exec (.slli rd rs1 shamt g) s = .next t ∧ CommitsOnly rd v s t ∧
    v.toNat = (readReg s rs1).toNat * 2 ^ shamt.toNat % 2 ^ 32) ∧
  (∀ w : Word, w &&& 0x0000707F#32 = 0x00001033#32 →
    decode w = .sll (w.extractLsb' 7 5) (w.extractLsb' 15 5) (w.extractLsb' 20 5) (w.extractLsb' 25 7)) ∧
  ∀ (rd rs1 rs2 : RegIndex) (g : BitVec 7) (s : State), ∃ v t, exec (.sll rd rs1 rs2 g) s = .next t ∧
    CommitsOnly rd v s t ∧ v.toNat = (readReg s rs1).toNat * 2 ^ ((readReg s rs2).toNat % 32) % 2 ^ 32

/-- R158, R177. SRLI and SRL: the unsigned quotient of src1 by 2 to the amount. -/
def Obligations.ShiftRightLogicalResult : Prop :=
  (∀ w : Word, w &&& 0x4000707F#32 = 0x00005013#32 →
    decode w = .srli (w.extractLsb' 7 5) (w.extractLsb' 15 5) (w.extractLsb' 20 5) (fIgnored6 w)) ∧
  (∀ (rd rs1 : RegIndex) (shamt : ShiftAmount) (g : BitVec 6) (s : State), ∃ v t,
    exec (.srli rd rs1 shamt g) s = .next t ∧ CommitsOnly rd v s t ∧
    v.toNat = (readReg s rs1).toNat / 2 ^ shamt.toNat) ∧
  (∀ w : Word, w &&& 0x4000707F#32 = 0x00005033#32 →
    decode w = .srl (w.extractLsb' 7 5) (w.extractLsb' 15 5) (w.extractLsb' 20 5) (fIgnored6 w)) ∧
  ∀ (rd rs1 rs2 : RegIndex) (g : BitVec 6) (s : State), ∃ v t, exec (.srl rd rs1 rs2 g) s = .next t ∧
    CommitsOnly rd v s t ∧ v.toNat = (readReg s rs1).toNat / 2 ^ ((readReg s rs2).toNat % 32)

/-- R159, R178. SRAI and SRA: the signed quotient of src1 by 2 to the amount, rounded toward minus infinity. -/
def Obligations.ShiftRightArithmeticResult : Prop :=
  (∀ w : Word, w &&& 0x4000707F#32 = 0x40005013#32 →
    decode w = .srai (w.extractLsb' 7 5) (w.extractLsb' 15 5) (w.extractLsb' 20 5) (fIgnored6 w)) ∧
  (∀ (rd rs1 : RegIndex) (shamt : ShiftAmount) (g : BitVec 6) (s : State), ∃ v t,
    exec (.srai rd rs1 shamt g) s = .next t ∧ CommitsOnly rd v s t ∧
    v.toInt = Int.fdiv (readReg s rs1).toInt (2 ^ shamt.toNat)) ∧
  (∀ w : Word, w &&& 0x4000707F#32 = 0x40005033#32 →
    decode w = .sra (w.extractLsb' 7 5) (w.extractLsb' 15 5) (w.extractLsb' 20 5) (fIgnored6 w)) ∧
  ∀ (rd rs1 rs2 : RegIndex) (g : BitVec 6) (s : State), ∃ v t, exec (.sra rd rs1 rs2 g) s = .next t ∧
    CommitsOnly rd v s t ∧ v.toInt = Int.fdiv (readReg s rs1).toInt (2 ^ ((readReg s rs2).toNat % 32))

/-- R190 (45_non_alu.md; R192 infers the fields' inertness from it). A word with neither ALU opcode decodes to the
no-op class and completes without changing anything; the whole step with such a word latched and enable high writes no
register (reset clears them) and loads the latch as for every word; the ALU output is, as R190 says, what NONALU_RESULT
chooses, so both readings are given (D7, log entry 3; not gated by reset, D8, log entry 11). -/
def Obligations.NonAluWordIsNoOp : Prop :=
  ∀ w : Word, w.extractLsb' 0 7 ≠ 0x13#7 → w.extractLsb' 0 7 ≠ 0x33#7 →
    decode w = .nopOther w ∧ (∀ s : State, exec (.nopOther w) s = .next s) ∧
    ∀ s : State, s.latch = w → (currentInput s).en = true →
      (∃ t, step s = .next t ∧
        (∀ i, readReg t i = if (currentInput s).rst then 0#32 else readReg s i) ∧
        t.latch = if (currentInput s).rst then 0#32 else (currentInput s).instrIn) ∧
      aluResultOutput .zero true s = 0#32 ∧
      aluResultOutput .ungated true s =
        alu (readReg s (w.extractLsb' 15 5)) (readReg s (w.extractLsb' 20 5)) (w.extractLsb' 20 12) false
          (w.extractLsb' 12 3)

/-! ### The step -/

/-- A step runs the decoded instruction: with enable high and reset low, the step is exec of the instruction the latch
decodes to, on the state with this step's input consumed, and the latch takes the presented word at the same edge
(R150, R170, R111, R220). A fault or a refusal of the instruction would be the step's own. -/
def Obligations.StepRunsDecodedInstruction : Prop :=
  ∀ (s : State) (i : Instr), (currentInput s).en = true → (currentInput s).rst = false → decode s.latch = i →
    (∀ t, exec i (advanceInput s) = .next t → step s = .next { t with latch := (currentInput s).instrIn }) ∧
    (∀ f, exec i (advanceInput s) = .fault f → step s = .fault f) ∧
    (∀ r, exec i (advanceInput s) = .refused r → step s = .refused r)

/-- R150 (43_op_imm.md): the execution frame of the immediate family, from the latched word through the decoder's
outputs and the ALU to the one committed register; reset overrides the write. -/
def Obligations.ImmediateFamilyFrame : Prop :=
  ∀ s : State, s.latch.extractLsb' 0 7 = 0x13#7 → (currentInput s).en = true →
    (decodeControl s.latch true).aluEnable = true ∧ (decodeControl s.latch true).aluImmediateMode = true ∧
    ((currentInput s).rst = false → ∃ t, step s = .next t ∧ t.latch = (currentInput s).instrIn ∧
      (∀ i, readReg t i =
        if i = s.latch.extractLsb' 7 5 ∧ s.latch.extractLsb' 7 5 ≠ 0#5 then
          alu (readReg s (s.latch.extractLsb' 15 5)) (readReg s (s.latch.extractLsb' 20 5))
            (s.latch.extractLsb' 20 12) true (s.latch.extractLsb' 12 3)
        else readReg s i) ∧
      (∀ y, alu (readReg s (s.latch.extractLsb' 15 5)) y (s.latch.extractLsb' 20 12) true (s.latch.extractLsb' 12 3) =
        alu (readReg s (s.latch.extractLsb' 15 5)) (readReg s (s.latch.extractLsb' 20 5))
          (s.latch.extractLsb' 20 12) true (s.latch.extractLsb' 12 3))) ∧
    ((currentInput s).rst = true → ∃ t, step s = .next t ∧ t.latch = 0#32 ∧ ∀ i, readReg t i = 0#32)

/-- R170 (44_op.md): the execution frame of the register family; of imm12 only bit 10 is read. -/
def Obligations.RegisterFamilyFrame : Prop :=
  ∀ s : State, s.latch.extractLsb' 0 7 = 0x33#7 → (currentInput s).en = true →
    (decodeControl s.latch true).aluEnable = true ∧ (decodeControl s.latch true).aluImmediateMode = false ∧
    ((currentInput s).rst = false → ∃ t, step s = .next t ∧ t.latch = (currentInput s).instrIn ∧
      (∀ i, readReg t i =
        if i = s.latch.extractLsb' 7 5 ∧ s.latch.extractLsb' 7 5 ≠ 0#5 then
          alu (readReg s (s.latch.extractLsb' 15 5)) (readReg s (s.latch.extractLsb' 20 5))
            (s.latch.extractLsb' 20 12) false (s.latch.extractLsb' 12 3)
        else readReg s i) ∧
      (∀ m : Imm12, m.getLsbD 10 = s.latch.getLsbD 30 →
        alu (readReg s (s.latch.extractLsb' 15 5)) (readReg s (s.latch.extractLsb' 20 5)) m false
            (s.latch.extractLsb' 12 3) =
          alu (readReg s (s.latch.extractLsb' 15 5)) (readReg s (s.latch.extractLsb' 20 5))
            (s.latch.extractLsb' 20 12) false (s.latch.extractLsb' 12 3))) ∧
    ((currentInput s).rst = true → ∃ t, step s = .next t ∧ t.latch = 0#32 ∧ ∀ i, readReg t i = 0#32)

/-- R222 (47_step.md), R62, R240: no state and no input faults, traps or stops the core, and no instruction does. -/
def Obligations.EveryStepCompletes : Prop :=
  (∀ s : State, SafeStep s) ∧ ∀ (i : Instr) (s : State), ∃ t, exec i s = .next t

/-- R220 (47_step.md): the step is the wired datapath, decoder to ReadMux to ALU to write-enable demultiplexer to
register cells, and the outputs show the state's registers and the ALU result of R139 (42_alu.md): zero with enable
low, which the spec infers; for a non-ALU word what NONALU_RESULT chooses, which decision D7 leaves open (log entry 3);
in a reset step not gated, decision D8 (log entry 11). The instruction meanings and the datapath are two texts. -/
def Obligations.StepRefinesDatapath : Prop :=
  ∀ s : State, step s = .next (datapathStep (currentInput s) s) ∧
    (∀ i : Fin 32, (outputs s).regs[i] = readReg s (BitVec.ofFin i)) ∧
    (outputs s).aluResult =
      if (currentInput s).en ∧ (isAluWord s.latch ∨ Config.nonAluResult = .ungated) then
        alu (readReg s (s.latch.extractLsb' 15 5)) (readReg s (s.latch.extractLsb' 20 5)) (s.latch.extractLsb' 20 12)
          (s.latch.extractLsb' 0 7 = 0x13#7) (s.latch.extractLsb' 12 3)
      else 0x00000000#32

/-- R111 (41_decoder.md): the latch in every step: reset, else enable, else hold. -/
def Obligations.LatchUpdate : Prop :=
  ∀ s : State, ∃ t, step s = .next t ∧
    t.latch =
      if (currentInput s).rst then 0x00000000#32
      else if (currentInput s).en then (currentInput s).instrIn else s.latch

/-- R201, R202 (46_regfile_readmux.md): every register 1..31 in every step: reset, else its write-enable line (ALU
enable and rd equal), else hold. -/
def Obligations.RegisterCellUpdate : Prop :=
  ∀ s : State, ∃ t, step s = .next t ∧ ∀ i : RegIndex, i ≠ 0#5 →
    readReg t i =
      let d := decodeControl s.latch (currentInput s).en
      if (currentInput s).rst then 0x00000000#32
      else if d.aluEnable && d.rdIndex == i then
        alu (readReg s d.rs1Index) (readReg s d.rs2Index) d.imm12 d.aluImmediateMode d.func3
      else readReg s i

/-- R204 (46_regfile_readmux.md, an inference the spec marks as its own): at most one write-enable line is asserted,
and exactly one when ALU enable is high and rd is not x0. -/
def Obligations.SingleWriteEnable : Prop :=
  ∀ d : DecodedControl,
    (∀ j k : Fin 31, writeEnable d j = true → writeEnable d k = true → j = k) ∧
    ((∃ k : Fin 31, writeEnable d k = true) ↔ d.aluEnable = true ∧ d.rdIndex ≠ 0#5)

/-- R224 (47_step.md, an inference the spec marks as its own), R252: with enable and reset low the step leaves latch and
registers as they are, whatever word is presented; only the input is consumed. -/
def Obligations.EnableLowHoldsState : Prop :=
  ∀ s : State, (currentInput s).en = false → (currentInput s).rst = false →
    ∃ t, step s = .next t ∧ t.latch = s.latch ∧ t.cells = s.cells ∧ t.inputs = s.inputs.tail

/-- R225 (47_step.md, an inference the spec marks as its own): enable-low steps inserted anywhere in the driver's
sequence change nothing of where a run ends. -/
def Obligations.EnableLowStepsTransparent : Prop :=
  ∀ (s : State) (xs lows ys : List StepInput), (∀ p ∈ lows, p.en = false ∧ p.rst = false) →
    runSteps (xs.length + lows.length + ys.length) (supply s (xs ++ lows ++ ys)) =
      runSteps (xs.length + ys.length) (supply s (xs ++ ys))

/-- R260, R261 (70_reset_and_hazards.md): a step with reset high clears the latch and every register, whatever enable,
the presented word and the latched word are, and from every state, that of power-on too. -/
def Obligations.ResetStepClears : Prop :=
  ∀ s : State, (currentInput s).rst = true →
    ∃ t, step s = .next t ∧ t.latch = 0x00000000#32 ∧ ∀ i, readReg t i = 0x00000000#32

/-- R262 (70_reset_and_hazards.md, an inference the spec marks as its own, from R260): the state after reset: latch
and every register zero, so the outputs of the next step are zero under either reading of NONALU_RESULT and either
enable. -/
def Obligations.ResetStateValues : Prop :=
  State.reset.latch = 0x00000000#32 ∧ (∀ i, readReg State.reset i = 0x00000000#32) ∧
  ∀ (reading : NonAluResult) (en : Bool), aluResultOutput reading en State.reset = 0x00000000#32

/-- R263 (70_reset_and_hazards.md, an inference the spec marks as its own): any positive number of reset steps gives
the state one gives. -/
def Obligations.HeldResetIsOneReset : Prop :=
  ∀ (s : State) (ps qs : List StepInput), ps ≠ [] → (∀ p ∈ ps, p.rst = true) →
    runSteps ps.length (supply s (ps ++ qs)) =
      .next { State.reset with inputs := qs, unsupplied := s.unsupplied }

/-- R193, R266 (the spec's own inferences): the all-zero word is of the no-op class; a reset step leaves it latched,
so the step after it, if no reset step itself, changes no register whatever is presented in either step, and an enabled
one latches its word. -/
def Obligations.FirstStepAfterResetIsNoOp : Prop :=
  decode 0x00000000#32 = .nopOther 0x00000000#32 ∧
  ∀ s : State, (currentInput s).rst = true → ∃ t, step s = .next t ∧ t.latch = 0x00000000#32 ∧
    ((currentInput t).rst = false → ∃ u, step t = .next u ∧ (∀ i, readReg u i = readReg t i) ∧
      u.latch = if (currentInput t).en then (currentInput t).instrIn else 0x00000000#32)

/-- R223 (47_step.md, an inference the spec marks as its own): a word presented in an enabled step is latched by it
(that step runs the word latched before) and runs in the next enabled step, however many enable-low steps stand
between. -/
def Obligations.PresentedWordRunsInNextEnabledStep : Prop :=
  ∀ (s : State) (p q : StepInput) (lows rest : List StepInput),
    p.en = true → p.rst = false → (∀ l ∈ lows, l.en = false ∧ l.rst = false) → q.en = true → q.rst = false →
    ∃ t u v, exec (decode s.latch) (supply s (lows ++ q :: rest)) = .next t ∧
      step (supply s (p :: (lows ++ q :: rest))) = .next (loadLatch t p.instrIn) ∧
      exec (decode p.instrIn) (loadLatch t p.instrIn) = .next u ∧
      v = loadLatch (supply u rest) q.instrIn ∧
      runSteps (lows.length + 1) (loadLatch t p.instrIn) = .next v

/-- R226 (47_step.md; the canonical driver is the spec's own choice, D6 and D10): under the canonical driver, from any
state, word number k has run by the end of step k + 2 (the reset step is step 1), after the words before it, in order,
from the reset state, and the next word, or the drain word 0x00000013, is latched; at k the length of the list every
result is committed. -/
def Obligations.CanonicalDriverRunsEveryWord : Prop :=
  ∀ (s : State) (ws : List Word) (rest : List StepInput) (k : Nat), k ≤ ws.length →
    runSteps (k + 2) (supply s (canonicalDriver ws ++ rest)) =
      .next (loadLatch
        ((ws.take k).foldl commitWord
          { State.reset with inputs := (canonicalDriver ws ++ rest).drop (k + 2), unsupplied := s.unsupplied })
        (ws.getD k 0x00000013#32))

/-- R203 (46_regfile_readmux.md; R63 infers the same of hints): a word that names x0 as its destination changes
nothing when it runs, and x0 reads zero after every step. -/
def Obligations.RegisterZeroImmutable : Prop :=
  (∀ (w : Word) (s : State), w.extractLsb' 7 5 = 0#5 → exec (decode w) s = .next s) ∧
  ∀ s : State, ∃ t, step s = .next t ∧ readReg s 0#5 = 0#32 ∧ readReg t 0#5 = 0#32

/-- R24 (10_state.md): no instruction writes more than one register or any other state. -/
def Obligations.AtMostOneRegisterWritten : Prop :=
  ∀ (i : Instr) (s : State), ∃ t rd, exec i s = .next t ∧ (∀ j, j ≠ rd → readReg t j = readReg s j) ∧
    t.latch = s.latch ∧ t.inputs = s.inputs ∧ t.unsupplied = s.unsupplied

/-- R21 (10_state.md): no instruction reads the latch or the pending inputs: changing them before an instruction
changes its outcome in them only. -/
def Obligations.LatchNotReadByInstructions : Prop :=
  ∀ (i : Instr) (s : State) (w : Word) (ps : List StepInput), ∃ t, exec i s = .next t ∧
    exec i { s with latch := w, inputs := ps } = .next { t with latch := w, inputs := ps }

/-! ### Decoding and encoding -/

/-- Decoding an encoded well-formed instruction gives it back, every operand and every undecoded bit at every value
(R51 to R54, R59, R60). That the syntax keeps the undecoded bits is the model's choice (log entry 13); the funct3
numbers are decision D2 (log entry 8). -/
def Obligations.DecodeOfEncode : Prop :=
  ∀ i : Instr, i.wellFormed = true → decode (encode i) = i

/-- Every word decodes to a well-formed instruction whose encoding is the word: no bit is lost and no two words are
one instruction (R50, R62; the kept bits are the model's choice, log entry 13). -/
def Obligations.EncodeOfDecode : Prop :=
  ∀ w : Word, (decode w).wellFormed = true ∧ encode (decode w) = w

/-- R60 (30_encoding.md, its last sentence, an inference the spec marks as its own; the masks rest on decision D16, log
entry 9): every word with an ALU opcode matches exactly one of the 19 rows, that of the instruction it
decodes to, and every other word matches none. -/
def Obligations.ExactlyOneRowSelectsWord : Prop :=
  aluRows.length = 19 ∧ ∀ w : Word, aluRows.filter (·.selects w) = (decode w).row.toList

/-- R57 (30_encoding.md, decision D16, log entry 9: no source states it): the bits a form does not decode change
nothing of what the word does: instr[31] and instr[29:25] in register mode and in the right shifts by an immediate,
instr[30] too where mode is not read. -/
def Obligations.UndecodedBitsHaveNoEffect : Prop :=
  ∀ (w w' : Word) (s : State),
    (w.extractLsb' 0 7 = 0x33#7 → w &&& 0x41FFFFFF#32 = w' &&& 0x41FFFFFF#32 → exec (decode w) s = exec (decode w') s) ∧
    (w.extractLsb' 0 7 = 0x33#7 → w.extractLsb' 12 3 ≠ 0b000#3 → w.extractLsb' 12 3 ≠ 0b101#3 →
      w &&& 0x01FFFFFF#32 = w' &&& 0x01FFFFFF#32 → exec (decode w) s = exec (decode w') s) ∧
    (w.extractLsb' 0 7 = 0x13#7 → w.extractLsb' 12 3 = 0b101#3 →
      w &&& 0x41FFFFFF#32 = w' &&& 0x41FFFFFF#32 → exec (decode w) s = exec (decode w') s) ∧
    (w.extractLsb' 0 7 = 0x13#7 → w.extractLsb' 12 3 = 0b001#3 →
      w &&& 0x01FFFFFF#32 = w' &&& 0x01FFFFFF#32 → exec (decode w) s = exec (decode w') s)

/-- Words written out from the encodings of 95_test_vectors.md decode to the instructions they stand for, one or more
a family, the non-canonical ones of R61 among them (mul runs as add, div as xor, slli with instr[30] set as slli:
decision D16, log entry 9). -/
def Obligations.EncodedWordsDecode : Prop :=
  decode 0x00500093#32 = .addi 1 0 5#12 ∧
  decode 0x40235293#32 = .srai 5 6 2 0#6 ∧
  decode 0x407302B3#32 = .sub 5 6 7 0#6 ∧
  decode 0x007332B3#32 = .sltu 5 6 7 0#7 ∧
  decode 0x00208463#32 = .nopOther 0x00208463#32 ∧
  decode 0x022081B3#32 = .add 3 1 2 1#6 ∧
  decode 0x0220C1B3#32 = .xor 3 1 2 1#7 ∧
  decode 0x40431293#32 = .slli 5 6 4 0b0100000#7

/-- R114 to R118 (41_decoder.md): with enable low every decoder output is zero; with enable high the fields are the
word's, ALU enable is high for the two ALU opcodes and immediate mode for the immediate one. -/
def Obligations.DecoderOutputs : Prop :=
  ∀ w : Word,
    decodeControl w false = ⟨false, false, 0b0000000#7, 0#5, 0#5, 0#5, 0x000#12, 0b000#3⟩ ∧
    decodeControl w true =
      ⟨w.extractLsb' 0 7 = 0b0010011#7 ∨ w.extractLsb' 0 7 = 0b0110011#7, w.extractLsb' 0 7 = 0b0010011#7,
        w.extractLsb' 0 7, w.extractLsb' 15 5, w.extractLsb' 20 5, w.extractLsb' 7 5, w.extractLsb' 20 12,
        w.extractLsb' 12 3⟩

/-- R139 (42_alu.md, with decision D7 left open, log entry 3), R120: the ALU output: the ALU's result for an ALU word,
zero with enable low, and for a non-ALU word with enable high what NONALU_RESULT chooses. -/
def Obligations.AluResultOutputValue : Prop :=
  ∀ (reading : NonAluResult) (s : State),
    let result := alu (readReg s (s.latch.extractLsb' 15 5)) (readReg s (s.latch.extractLsb' 20 5))
      (s.latch.extractLsb' 20 12) (s.latch.extractLsb' 0 7 = 0x13#7) (s.latch.extractLsb' 12 3)
    aluResultOutput reading false s = 0#32 ∧
    (isAluWord s.latch = true → aluResultOutput reading true s = result) ∧
    (isAluWord s.latch = false →
      aluResultOutput .ungated true s = result ∧ aluResultOutput .zero true s = 0#32)

/-! ### The arithmetic primitives -/

/-- R86 (40_bitword.md): the adder is the ripple of carries, and (the spec's own inference) modulo 2^n as an integer,
signed or unsigned. -/
def Obligations.AdderRipplesCarry : Prop :=
  ∀ (n : Nat) (a b : BitVec n),
    (∀ i < n, (Bits.add a b).getLsbD i = (a.getLsbD i ^^ b.getLsbD i ^^ carryInto a b i)) ∧
    (Bits.add a b).toNat = (a.toNat + b.toNat) % 2 ^ n ∧
    (Bits.add a b).toInt = (a.toInt + b.toInt).bmod (2 ^ n)

/-- R87 (40_bitword.md): the subtractor is the ripple of borrows, and (the spec's own inference) modulo 2^n as an
integer, and adding the two's-complement negation. -/
def Obligations.SubtractorRipplesBorrow : Prop :=
  ∀ (n : Nat) (a b : BitVec n),
    (∀ i < n, (Bits.sub a b).getLsbD i = (a.getLsbD i ^^ b.getLsbD i ^^ borrowInto a b i)) ∧
    ((Bits.sub a b).toNat : Int) = ((a.toNat : Int) - b.toNat) % 2 ^ n ∧
    Bits.sub a b = Bits.add a (Bits.add (Bits.not b) 1#n)

/-- R88 to R91 (40_bitword.md): the gates and the three shifters, bit by bit, for an amount of any width; an arithmetic
shift by the width or more is all sign bits (C10, log entry 20), and is the floor of the quotient (the spec's own
inference). -/
def Obligations.GatesAndShiftersBitwise : Prop :=
  ∀ (n m : Nat) (a b : BitVec n) (s : BitVec m) (i : Nat), i < n →
    (Bits.and a b).getLsbD i = (a.getLsbD i && b.getLsbD i) ∧
    (Bits.or a b).getLsbD i = (a.getLsbD i || b.getLsbD i) ∧
    (Bits.xor a b).getLsbD i = (a.getLsbD i ^^ b.getLsbD i) ∧
    (Bits.not a).getLsbD i = !a.getLsbD i ∧
    (Bits.shl a s).getLsbD i = (if s.toNat ≤ i then a.getLsbD (i - s.toNat) else false) ∧
    (Bits.shr a s).getLsbD i = (if i + s.toNat < n then a.getLsbD (i + s.toNat) else false) ∧
    (Bits.sra a s).getLsbD i = (if i + s.toNat < n then a.getLsbD (i + s.toNat) else a.getLsbD (n - 1)) ∧
    (Bits.shl a s).toNat = a.toNat * 2 ^ s.toNat % 2 ^ n ∧
    (Bits.shr a s).toNat = a.toNat / 2 ^ s.toNat ∧
    (Bits.sra a s).toInt = Int.fdiv a.toInt (2 ^ s.toNat)

/-- R92, R93 (40_bitword.md): both comparators, by the spec's case on the sign bits and (the spec's own inference) as
orders of integers, two negative operands included (C2, log entry 12). -/
def Obligations.ComparatorsOrderIntegers : Prop :=
  ∀ (n : Nat) (a b : BitVec n),
    Bits.ltu a b = (if a.toNat < b.toNat then 1#n else 0#n) ∧
    Bits.lts a b =
      (if (if a.getLsbD (n - 1) ≠ b.getLsbD (n - 1) then a.getLsbD (n - 1) = true else a.toNat < b.toNat) then 1#n
        else 0#n) ∧
    Bits.lts a b = (if a.toInt < b.toInt then 1#n else 0#n)

/-- R97 (40_bitword.md, an inference the spec marks as its own): the signed comparator is the unsigned one with both
sign bits flipped, and the unsigned comparator is the borrow out of the subtractor. -/
def Obligations.ComparatorRelation : Prop :=
  ∀ (n : Nat) (a b : BitVec n), 1 ≤ n →
    Bits.lts a b = Bits.ltu (Bits.xor a (BitVec.twoPow n (n - 1))) (Bits.xor b (BitVec.twoPow n (n - 1))) ∧
    (Bits.ltu a b = 1#n ↔ borrowInto a b n = true)

/-- R84, R85 (40_bitword.md): the extensions of a word that carries its width: to fewer bits they fault; else the new
positions hold the sign bit, or zero, and the signed, or unsigned, value is kept. -/
def Obligations.ExtensionKeepsValueOrFaults : Prop :=
  ∀ (a : BitWord) (m : Nat), a.wf = true →
    (m < a.width → a.signExtend m = .fault .extendNarrower ∧ a.zeroExtend m = .fault .extendNarrower) ∧
    (a.width ≤ m →
      (∃ r, a.signExtend m = .next r ∧ r.width = m ∧ r.toSignedNumber = a.toSignedNumber ∧
        ∀ i < m, r.bits.getLsbD i = if i < a.width then a.bits.getLsbD i else a.bits.getLsbD (a.width - 1)) ∧
      (∃ r, a.zeroExtend m = .next r ∧ r.width = m ∧ r.toNumber = a.toNumber ∧
        ∀ i < m, r.bits.getLsbD i = if i < a.width then a.bits.getLsbD i else false))

/-- R81, R82 (40_bitword.md, decision D12, log entry 14): a literal is built exactly when it fits its width and is
refused otherwise; a slice is taken exactly when its bounds lie in the word and faults otherwise. -/
def Obligations.LiteralAndSliceBounds : Prop :=
  (∀ (n : Nat) (v : Int), 1 ≤ n →
    (-(2 ^ (n - 1) : Int) ≤ v ∧ v < 2 ^ n →
      ∃ r, BitWord.literal n v = .next r ∧ r.width = n ∧ (r.toNumber : Int) = v % 2 ^ n) ∧
    (¬(-(2 ^ (n - 1) : Int) ≤ v ∧ v < 2 ^ n) → BitWord.literal n v = .refused .literalOutOfRange)) ∧
  ∀ (a : BitWord) (hi lo : Nat),
    (hi < a.width ∧ lo ≤ hi →
      ∃ r, a.slice hi lo = .next r ∧ r.width = hi - lo + 1 ∧
        ∀ j < hi - lo + 1, r.bits.getLsbD j = a.bits.getLsbD (lo + j)) ∧
    (¬(hi < a.width ∧ lo ≤ hi) → a.slice hi lo = .fault .sliceOutOfRange)

/-- R83 (40_bitword.md, decision D14, log entry 14): a binary primitive on words of different widths fails loudly and
gives no value; on words of one width it completes at that width with the value of R86 to R88, R92, R93 and R95 (the
equality comparator at one bit), which the statements on the typed primitives give bit by bit. -/
def Obligations.WidthMismatchFaults : Prop :=
  (∀ a b : BitWord, a.width ≠ b.width →
      a.add b = .fault .widthMismatch ∧ a.sub b = .fault .widthMismatch ∧ a.and b = .fault .widthMismatch ∧
      a.or b = .fault .widthMismatch ∧ a.xor b = .fault .widthMismatch ∧ a.lessThan b = .fault .widthMismatch ∧
      a.lessThanSigned b = .fault .widthMismatch ∧ a.equal b = .fault .widthMismatch) ∧
  ∀ (n : Nat) (x y : BitVec n),
    BitWord.add ⟨n, x⟩ ⟨n, y⟩ = .next ⟨n, Bits.add x y⟩ ∧
    BitWord.sub ⟨n, x⟩ ⟨n, y⟩ = .next ⟨n, Bits.sub x y⟩ ∧
    BitWord.and ⟨n, x⟩ ⟨n, y⟩ = .next ⟨n, Bits.and x y⟩ ∧
    BitWord.or ⟨n, x⟩ ⟨n, y⟩ = .next ⟨n, Bits.or x y⟩ ∧
    BitWord.xor ⟨n, x⟩ ⟨n, y⟩ = .next ⟨n, Bits.xor x y⟩ ∧
    BitWord.lessThan ⟨n, x⟩ ⟨n, y⟩ = .next ⟨n, Bits.ltu x y⟩ ∧
    BitWord.lessThanSigned ⟨n, x⟩ ⟨n, y⟩ = .next ⟨n, Bits.lts x y⟩ ∧
    BitWord.equal ⟨n, x⟩ ⟨n, y⟩ = .next ⟨1, if ∀ i < n, x.getLsbD i = y.getLsbD i then 1#1 else 0#1⟩

/-- R88 to R91, R94 (40_bitword.md): the complement and the three shifters of words that carry their width are the
typed ones, the amount taken by its unsigned value at any width of its own; `toNumber` and `toSignedNumber` are the
unsigned and the two's-complement value by the bits' weights (00_scope.md R10). -/
def Obligations.ShiftersAndConversionsOfWords : Prop :=
  ∀ a amount : BitWord,
    a.not = ⟨a.width, Bits.not a.bits⟩ ∧
    a.shiftLeft amount = ⟨a.width, Bits.shl a.bits amount.bits⟩ ∧
    a.shiftRight amount = ⟨a.width, Bits.shr a.bits amount.bits⟩ ∧
    a.shiftRightArithmetic amount = ⟨a.width, Bits.sra a.bits amount.bits⟩ ∧
    a.toNumber = ∑ i ∈ Finset.range a.width, (a.bits.getLsbD i).toNat * 2 ^ i ∧
    a.toSignedNumber = (a.toNumber : Int) - 2 ^ a.width * (a.bits.getLsbD (a.width - 1)).toNat

/-- R98 (40_bitword.md; its first two laws are the source's testable properties, the others inferences the spec marks
as its own): the laws a model must satisfy, each named in Machine/BitLaws.lean. -/
def Obligations.PrimitiveLaws : Prop :=
  BitWord.WraparoundLaw ∧ BitWord.SignExtensionRoundTripLaw ∧ BitWord.SubtractionLaw ∧ BitWord.ExtensionLaw ∧
  BitWord.ShiftLaw ∧ BitWord.OrderLaw

/-! ### Invariants a driver's sequence keeps -/

/-- A register that neither the latched word nor any supplied input can change (no reset, no word that targets it)
keeps its value through every step the driver supplied, and stays so sheltered (R24, R201, R202). -/
def Obligations.ShelteredRegisterStaysSheltered : Prop :=
  ∀ (r : RegIndex) (v : Word) (s t : State), Sheltered r v s → s.inputs ≠ [] → step s = .next t → Sheltered r v t

/-- Right after reset every register is sheltered at zero. -/
def Obligations.ResetShelters : Prop :=
  ∀ r : RegIndex, Sheltered r 0#32 State.reset

/-- The premise `canonical` of decision D16 on the words a driver supplies is enough: every step it supplied keeps the
latched word canonical, so that every word that runs is. -/
def Obligations.CanonicalStreamKept : Prop :=
  ∀ s t : State, CanonicalStream s → s.inputs ≠ [] → step s = .next t → CanonicalStream t

/-- The state after reset meets it: the latched zero word is canonical. -/
def Obligations.ResetIsCanonicalStream : Prop :=
  CanonicalStream State.reset

/-! ### The assembler's side -/

/-- R65, R67 (30_encoding.md, decision D11, log entry 18): an immediate or a shift amount outside its range is
refused, never wrapped; inside it, and in the register form, the instruction is well formed, its word is canonical and
has the mnemonic's opcode, funct3 and instr[31:25] and the line's registers and immediate field, whose value is the
integer written, and the word decodes to it. -/
def Obligations.AssemblerRanges : Prop :=
  (∀ (m : ImmMnemonic) (rd rs1 : RegIndex) (v : Int),
    (-2048 ≤ v ∧ v ≤ 2047 → ∃ (i : Instr) (imm : Imm12), assemble (.imm m rd rs1 v) = .next i ∧
      i.wellFormed = true ∧ canonicalWord (encode i) = true ∧ decode (encode i) = i ∧ imm.toInt = v ∧
      encode i = imm ++ rs1 ++
        (match m with
          | .addi => 0b000#3
          | .slti => 0b010#3
          | .sltiu => 0b011#3
          | .xori => 0b100#3
          | .ori => 0b110#3
          | .andi => 0b111#3) ++ rd ++ 0b0010011#7) ∧
    (¬(-2048 ≤ v ∧ v ≤ 2047) → assemble (.imm m rd rs1 v) = .refused .immediateOutOfRange)) ∧
  (∀ (m : ShiftMnemonic) (rd rs1 : RegIndex) (v : Int),
    (0 ≤ v ∧ v ≤ 31 → ∃ (i : Instr) (shamt : ShiftAmount), assemble (.shift m rd rs1 v) = .next i ∧
      i.wellFormed = true ∧ canonicalWord (encode i) = true ∧ decode (encode i) = i ∧ (shamt.toNat : Int) = v ∧
      encode i =
        (match m with
          | .slli => 0b0000000#7
          | .srli => 0b0000000#7
          | .srai => 0b0100000#7) ++ shamt ++ rs1 ++
        (match m with
          | .slli => 0b001#3
          | .srli => 0b101#3
          | .srai => 0b101#3) ++ rd ++ 0b0010011#7) ∧
    (¬(0 ≤ v ∧ v ≤ 31) → assemble (.shift m rd rs1 v) = .refused .shiftAmountOutOfRange)) ∧
  ∀ (m : RegMnemonic) (rd rs1 rs2 : RegIndex), ∃ i, assemble (.reg m rd rs1 rs2) = .next i ∧
    i.wellFormed = true ∧ canonicalWord (encode i) = true ∧ decode (encode i) = i ∧
    encode i =
      (if m = .sub ∨ m = .sra then 0b0100000#7 else 0b0000000#7) ++ rs2 ++ rs1 ++
      (match m with
        | .add => 0b000#3
        | .sub => 0b000#3
        | .sll => 0b001#3
        | .slt => 0b010#3
        | .sltu => 0b011#3
        | .xor => 0b100#3
        | .srl => 0b101#3
        | .sra => 0b101#3
        | .or => 0b110#3
        | .and => 0b111#3) ++ rd ++ 0b0110011#7

/-- R66 (30_encoding.md, decision D11, log entry 18): what each pseudo-instruction does on this core, and which are
refused. -/
def Obligations.PseudoInstructionResults : Prop :=
  (∀ s : State, ∃ i, assemble .nop = .next i ∧ encode i = 0x00000013#32 ∧ exec i s = .next s) ∧
  (∀ (rd : RegIndex) (v : Int) (s : State), -2048 ≤ v → v ≤ 2047 → ∃ i t, assemble (.li rd v) = .next i ∧
    exec i s = .next t ∧ CommitsOnly rd (BitVec.ofInt 32 v) s t) ∧
  (∀ (rd : RegIndex) (v : Int), ¬(-2048 ≤ v ∧ v ≤ 2047) → assemble (.li rd v) = .refused .immediateOutOfRange) ∧
  (∀ (rd rs : RegIndex) (s : State),
    (∃ i t, assemble (.mv rd rs) = .next i ∧ exec i s = .next t ∧ CommitsOnly rd (readReg s rs) s t) ∧
    (∃ i t, assemble (.not rd rs) = .next i ∧ exec i s = .next t ∧ CommitsOnly rd (~~~(readReg s rs)) s t) ∧
    (∃ i t, assemble (.neg rd rs) = .next i ∧ exec i s = .next t ∧ CommitsOnly rd (-(readReg s rs)) s t) ∧
    (∃ i t, assemble (.seqz rd rs) = .next i ∧ exec i s = .next t ∧
      CommitsOnly rd (if readReg s rs = 0#32 then 1#32 else 0#32) s t) ∧
    (∃ i t, assemble (.snez rd rs) = .next i ∧ exec i s = .next t ∧
      CommitsOnly rd (if readReg s rs = 0#32 then 0#32 else 1#32) s t) ∧
    (∃ i t, assemble (.sltz rd rs) = .next i ∧ exec i s = .next t ∧
      CommitsOnly rd (if (readReg s rs).toInt < 0 then 1#32 else 0#32) s t) ∧
    (∃ i t, assemble (.sgtz rd rs) = .next i ∧ exec i s = .next t ∧
      CommitsOnly rd (if 0 < (readReg s rs).toInt then 1#32 else 0#32) s t)) ∧
  ∀ p : OtherPseudo, assemble (.other p) = .refused .pseudoOutsideSubset
end

