-- ==== Sys2Proof/Laws/Bits.lean ====
section
/-! SUPPORT. Each typed primitive as the library's operation, and the small facts of operand selection. -/

namespace Sys2Proof.Machine

variable {n m : Nat}

namespace Bits

theorem sext_eq (k : Nat) (v : BitVec n) : sext k v = v.signExtend k := rfl
theorem zext_eq (k : Nat) (v : BitVec n) : zext k v = v.setWidth k := rfl
theorem add_eq (a b : BitVec n) : add a b = a + b := rfl
theorem sub_eq (a b : BitVec n) : sub a b = a - b := rfl
theorem and_eq (a b : BitVec n) : and a b = a &&& b := rfl
theorem or_eq (a b : BitVec n) : or a b = a ||| b := rfl
theorem xor_eq (a b : BitVec n) : xor a b = a ^^^ b := rfl
theorem not_eq (a : BitVec n) : not a = ~~~a := rfl
theorem shl_eq (a : BitVec n) (s : BitVec m) : shl a s = a <<< s.toNat := rfl
theorem shr_eq (a : BitVec n) (s : BitVec m) : shr a s = a >>> s.toNat := rfl
theorem sra_eq (a : BitVec n) (s : BitVec m) : sra a s = a.sshiftRight s.toNat := rfl
theorem eq_iff (a b : BitVec n) : eq a b = true ↔ a = b := by simp [eq]

/-- A single bit zero-extended to a width is that width's 1 or 0. -/
theorem zext_ofBool (k : Nat) (t : Bool) : zext k (BitVec.ofBool t) = if t then 1#k else 0#k := by
  apply BitVec.eq_of_toNat_eq
  cases t <;> simp [zext_eq]

end Bits

namespace BitWord

/-- A binary primitive on words of one width. -/
@[simp] theorem binary_sameWidth (f : (n : Nat) → BitVec n → BitVec n → BitVec n) (x y : BitVec n) :
    binary f ⟨n, x⟩ ⟨n, y⟩ = .next ⟨n, f n x y⟩ := dif_pos rfl

/-- A binary primitive on words of different widths. -/
theorem binary_mismatch (f : (n : Nat) → BitVec n → BitVec n → BitVec n) {a b : BitWord} (h : a.width ≠ b.width) :
    binary f a b = .fault .widthMismatch := dif_neg fun e => h e.symm

/-- A word is its width and its bits: to speak of two words of one width is to speak of two bit vectors. -/
theorem sameWidth_cases {p : BitWord → BitWord → Prop} (h : ∀ (n : Nat) (x y : BitVec n), p ⟨n, x⟩ ⟨n, y⟩)
    (a b : BitWord) (e : a.width = b.width) : p a b := by
  obtain ⟨n, x⟩ := a
  obtain ⟨m, y⟩ := b
  obtain rfl : n = m := e
  exact h n x y

end BitWord

theorem operand2_imm (rs2 : Word) (imm : Imm12) : operand2 rs2 imm true = immOperand imm := rfl
theorem operand2_reg (rs2 : Word) (imm : Imm12) : operand2 rs2 imm false = rs2 := rfl
theorem shiftAmount_imm (rs2 : Word) (imm : Imm12) : shiftAmount rs2 imm true = imm.extractLsb' 0 5 := rfl
theorem shiftAmount_reg (rs2 : Word) (imm : Imm12) : shiftAmount rs2 imm false = regShiftAmount rs2 := rfl

/-- The shift amount's value is the register value modulo 32 (30_encoding.md R56). -/
theorem regShiftAmount_toNat (v : Word) : (regShiftAmount v).toNat = v.toNat % 32 := by
  simp [regShiftAmount, BitVec.extractLsb'_toNat]

/-- The shift amount field of a word is imm12[4:0] (R54). -/
theorem fImm12_low (w : Word) : (fImm12 w).extractLsb' 0 5 = fRs2 w := by
  apply BitVec.eq_of_getLsbD_eq; intro k h
  simp [fImm12, fRs2, h, show k < 12 by omega]

/-- The mode bit is imm12[10] = instr[30] (42_alu.md R133). -/
theorem modeBit_fImm12 (w : Word) : modeBit (fImm12 w) = fMode w := by
  simp [modeBit, fImm12, fMode]

end Sys2Proof.Machine
end

