-- ==== Sys2Proof/Laws/Decode.lean ====
section
/-! SUPPORT. The fields of an assembled word, what the decoder answers on each opcode, and what a row's mask says of
a word's fields. -/

namespace Sys2Proof

@[simp] theorem ofBits_toBits (op : AluOp) : AluOp.ofBits op.toBits = op := by cases op <;> rfl

theorem toBits_ofBits : ∀ f : Funct3, (AluOp.ofBits f).toBits = f := by decide

/-! ### The immediate layout -/

section Immediate
variable (imm : Imm12) (rs1 rd : RegIndex) (op : AluOp)

/-- Every bit of an assembled immediate-form word. -/
theorem getLsbD_encodeI (k : Nat) :
    (encodeI imm rs1 op rd).getLsbD k =
      if k < 7 then Config.opcodeImm.getLsbD k
      else if k < 12 then rd.getLsbD (k - 7)
      else if k < 15 then op.toBits.getLsbD (k - 12)
      else if k < 20 then rs1.getLsbD (k - 15)
      else imm.getLsbD (k - 20) := by
  show BitVec.getLsbD (w := 12 + 5 + 3 + 5 + 7) (imm ++ rs1 ++ op.toBits ++ rd ++ Config.opcodeImm) k = _
  simp only [BitVec.getLsbD_append]
  repeat' split
  all_goals first | rfl | omega

@[simp] theorem fOpcode_encodeI : fOpcode (encodeI imm rs1 op rd) = Config.opcodeImm := by
  apply BitVec.eq_of_getLsbD_eq; intro k h
  simp [fOpcode, getLsbD_encodeI, h]
@[simp] theorem fRd_encodeI : fRd (encodeI imm rs1 op rd) = rd := by
  apply BitVec.eq_of_getLsbD_eq; intro k h
  simp [fRd, getLsbD_encodeI, h, show 7 + k < 12 by omega]
@[simp] theorem fFunct3_encodeI : fFunct3 (encodeI imm rs1 op rd) = op.toBits := by
  apply BitVec.eq_of_getLsbD_eq; intro k h
  simp [fFunct3, getLsbD_encodeI, h, show 12 + k < 15 by omega, show ¬12 + k < 7 by omega]
@[simp] theorem fRs1_encodeI : fRs1 (encodeI imm rs1 op rd) = rs1 := by
  apply BitVec.eq_of_getLsbD_eq; intro k h
  simp [fRs1, getLsbD_encodeI, h, show 15 + k < 20 by omega, show ¬15 + k < 7 by omega, show ¬15 + k < 12 by omega]
@[simp] theorem fImm12_encodeI : fImm12 (encodeI imm rs1 op rd) = imm := by
  apply BitVec.eq_of_getLsbD_eq; intro k h
  simp [fImm12, getLsbD_encodeI, h, show ¬20 + k < 7 by omega, show ¬20 + k < 12 by omega, show ¬20 + k < 15 by omega]

end Immediate

/-! ### The layout with a seven-bit top field -/

section Register
variable (top : BitVec 7) (f20 rs1 rd : RegIndex) (op : AluOp) (opc : Opcode)

/-- Every bit of an assembled word with a seven-bit top field. -/
theorem getLsbD_encodeR (k : Nat) :
    (encodeR top f20 rs1 op rd opc).getLsbD k =
      if k < 7 then opc.getLsbD k
      else if k < 12 then rd.getLsbD (k - 7)
      else if k < 15 then op.toBits.getLsbD (k - 12)
      else if k < 20 then rs1.getLsbD (k - 15)
      else if k < 25 then f20.getLsbD (k - 20)
      else top.getLsbD (k - 25) := by
  show BitVec.getLsbD (w := 7 + 5 + 5 + 3 + 5 + 7) (top ++ f20 ++ rs1 ++ op.toBits ++ rd ++ opc) k = _
  simp only [BitVec.getLsbD_append]
  repeat' split
  all_goals first | rfl | omega

@[simp] theorem fOpcode_encodeR : fOpcode (encodeR top f20 rs1 op rd opc) = opc := by
  apply BitVec.eq_of_getLsbD_eq; intro k h
  simp [fOpcode, getLsbD_encodeR, h]
@[simp] theorem fRd_encodeR : fRd (encodeR top f20 rs1 op rd opc) = rd := by
  apply BitVec.eq_of_getLsbD_eq; intro k h
  simp [fRd, getLsbD_encodeR, h, show 7 + k < 12 by omega]
@[simp] theorem fFunct3_encodeR : fFunct3 (encodeR top f20 rs1 op rd opc) = op.toBits := by
  apply BitVec.eq_of_getLsbD_eq; intro k h
  simp [fFunct3, getLsbD_encodeR, h, show 12 + k < 15 by omega, show ¬12 + k < 7 by omega]
@[simp] theorem fRs1_encodeR : fRs1 (encodeR top f20 rs1 op rd opc) = rs1 := by
  apply BitVec.eq_of_getLsbD_eq; intro k h
  simp [fRs1, getLsbD_encodeR, h, show 15 + k < 20 by omega, show ¬15 + k < 7 by omega, show ¬15 + k < 12 by omega]
@[simp] theorem fRs2_encodeR : fRs2 (encodeR top f20 rs1 op rd opc) = f20 := by
  apply BitVec.eq_of_getLsbD_eq; intro k h
  simp [fRs2, getLsbD_encodeR, h, show 20 + k < 25 by omega, show ¬20 + k < 7 by omega, show ¬20 + k < 12 by omega,
    show ¬20 + k < 15 by omega]
@[simp] theorem fIgnored7_encodeR : fIgnored7 (encodeR top f20 rs1 op rd opc) = top := by
  apply BitVec.eq_of_getLsbD_eq; intro k h
  simp [fIgnored7, getLsbD_encodeR, h, show ¬25 + k < 7 by omega, show ¬25 + k < 12 by omega,
    show ¬25 + k < 15 by omega, show ¬25 + k < 20 by omega]

end Register

/-! ### The mode bit and the undecoded bits around it -/

/-- The word's top field determines its mode bit. -/
theorem fMode_eq (w : Word) : fMode w = (fIgnored7 w).getLsbD 5 := by
  simp [fMode, fIgnored7]

/-- The word's top field determines its six undecoded bits. -/
theorem fIgnored6_eq (w : Word) : fIgnored6 w = (fIgnored7 w).extractLsb' 6 1 ++ (fIgnored7 w).extractLsb' 0 5 := by
  have h1 : (fIgnored7 w).extractLsb' 6 1 = w.extractLsb' 31 1 := by
    apply BitVec.eq_of_getLsbD_eq; intro k h
    obtain rfl : k = 0 := by omega
    simp [fIgnored7]
  have h2 : (fIgnored7 w).extractLsb' 0 5 = w.extractLsb' 25 5 := by
    apply BitVec.eq_of_getLsbD_eq; intro k h
    simp [fIgnored7, h, show k < 7 by omega]
  rw [h1, h2, fIgnored6]

theorem topWithMode_mode : ∀ (g : BitVec 6) (m : BitVec 1), (topWithMode g m).getLsbD 5 = m.getLsbD 0 := by decide

theorem topWithMode_ignored :
    ∀ (g : BitVec 6) (m : BitVec 1), (topWithMode g m).extractLsb' 6 1 ++ (topWithMode g m).extractLsb' 0 5 = g := by
  decide

/-- The top field is its undecoded bits with the mode bit between them. -/
theorem topWithMode_split :
    ∀ t : BitVec 7, topWithMode (t.extractLsb' 6 1 ++ t.extractLsb' 0 5) (BitVec.ofBool (t.getLsbD 5)) = t := by
  decide

/-! ### The decoder on each opcode -/

theorem isAluWord_eq (w : Word) :
    isAluWord w = (fOpcode w == Config.opcodeImm || fOpcode w == Config.opcodeReg) := rfl

theorem decode_of_opcodeImm {w : Word} (h : fOpcode w = Config.opcodeImm) : decode w = decodeImm w := by
  simp [decode, h]

theorem decode_of_opcodeReg {w : Word} (h : fOpcode w = Config.opcodeReg) : decode w = decodeReg w := by
  have : Config.opcodeReg ≠ Config.opcodeImm := by decide
  simp [decode, h, this]

theorem decode_of_nonAlu {w : Word} (h : isAluWord w = false) : decode w = .nopOther w := by
  rw [isAluWord_eq] at h
  simp only [Bool.or_eq_false_iff, beq_eq_false_iff_ne, ne_eq] at h
  simp [decode, h.1, h.2]

/-! ### A row's mask and the word's fields -/

/-- The mask of opcode and funct3 keeps those two fields. -/
theorem and_plainMask (w : Word) :
    w &&& 0x0000707F#32 = (fFunct3 w).setWidth 32 <<< 12 ||| (fOpcode w).setWidth 32 := by
  ext k hk
  simp only [fFunct3, fOpcode]
  interval_cases k <;> simp

/-- The mask of opcode, funct3 and mode keeps those three fields. -/
theorem and_modeMask (w : Word) :
    w &&& 0x4000707F#32 =
      (BitVec.ofBool (fMode w)).setWidth 32 <<< 30 ||| (fFunct3 w).setWidth 32 <<< 12 |||
        (fOpcode w).setWidth 32 := by
  ext k hk
  simp only [fFunct3, fOpcode, fMode]
  interval_cases k <;> simp

/-- A row that masks opcode and funct3 fixes both. -/
theorem fields_of_plainMask {w m : Word} (h : w &&& 0x0000707F#32 = m) :
    fOpcode w = fOpcode m ∧ fFunct3 w = fFunct3 m := by
  subst h
  constructor <;> apply BitVec.eq_of_getLsbD_eq <;> intro k hk
  · simp only [fOpcode]; interval_cases k <;> simp
  · simp only [fFunct3]; interval_cases k <;> simp

/-- A row that masks opcode, funct3 and mode fixes all three. -/
theorem fields_of_modeMask {w m : Word} (h : w &&& 0x4000707F#32 = m) :
    fOpcode w = fOpcode m ∧ fFunct3 w = fFunct3 m ∧ fMode w = fMode m := by
  subst h
  refine ⟨?_, ?_, by simp [fMode]⟩ <;> apply BitVec.eq_of_getLsbD_eq <;> intro k hk
  · simp only [fOpcode]; interval_cases k <;> simp
  · simp only [fFunct3]; interval_cases k <;> simp

/-! ### A word put together again from its fields -/

theorem encodeI_fields {w : Word} {op : AluOp} (ho : fOpcode w = Config.opcodeImm) (hf : op.toBits = fFunct3 w) :
    encodeI (fImm12 w) (fRs1 w) op (fRd w) = w := by
  apply BitVec.eq_of_getLsbD_eq; intro k hk
  rw [getLsbD_encodeI, ← ho, hf]
  simp only [fOpcode, fRd, fFunct3, fRs1, fImm12, BitVec.getLsbD_extractLsb']
  interval_cases k <;> simp

theorem encodeR_fields {w : Word} {op : AluOp} {opc : Opcode} (ho : fOpcode w = opc) (hf : op.toBits = fFunct3 w) :
    encodeR (fIgnored7 w) (fRs2 w) (fRs1 w) op (fRd w) opc = w := by
  apply BitVec.eq_of_getLsbD_eq; intro k hk
  rw [getLsbD_encodeR, ← ho, hf]
  simp only [fOpcode, fRd, fFunct3, fRs1, fRs2, fIgnored7, BitVec.getLsbD_extractLsb']
  interval_cases k <;> simp

theorem topWithMode_fields {w : Word} {m : BitVec 1} (h : m = BitVec.ofBool (fMode w)) :
    topWithMode (fIgnored6 w) m = fIgnored7 w := by
  subst h; rw [fIgnored6_eq, fMode_eq, topWithMode_split]

end Sys2Proof
end

