-- ==== Sys2Proof/Laws/State.lean ====
section
/-! SUPPORT. One lemma per field per update of the state. -/

namespace Sys2Proof.Machine

/-! ### Committing a register -/

@[simp] theorem writeReg_latch (s : State) (i : RegIndex) (v : Word) : (writeReg s i v).latch = s.latch := by
  unfold writeReg; split <;> rfl
@[simp] theorem writeReg_inputs (s : State) (i : RegIndex) (v : Word) : (writeReg s i v).inputs = s.inputs := by
  unfold writeReg; split <;> rfl
@[simp] theorem writeReg_unsupplied (s : State) (i : RegIndex) (v : Word) :
    (writeReg s i v).unsupplied = s.unsupplied := by
  unfold writeReg; split <;> rfl

/-! ### Consuming an input -/

@[simp] theorem advanceInput_latch (s : State) : (advanceInput s).latch = s.latch := by
  unfold advanceInput; split <;> rfl
@[simp] theorem advanceInput_cells (s : State) : (advanceInput s).cells = s.cells := by
  unfold advanceInput; split <;> rfl

theorem advanceInput_cons {s : State} {p : StepInput} {ps : List StepInput} (h : s.inputs = p :: ps) :
    advanceInput s = { s with inputs := ps } := by
  unfold advanceInput; rw [h]
theorem advanceInput_nil {s : State} (h : s.inputs = []) :
    advanceInput s = { s with unsupplied := s.unsupplied + 1 } := by
  unfold advanceInput; rw [h]
theorem currentInput_cons {s : State} {p : StepInput} {ps : List StepInput} (h : s.inputs = p :: ps) :
    currentInput s = p := by
  unfold currentInput; rw [h]
theorem currentInput_nil {s : State} (h : s.inputs = []) : currentInput s = Config.driver s.unsupplied := by
  unfold currentInput; rw [h]

/-! ### Reset -/

@[simp] theorem resetEdge_latch (s : State) : (resetEdge s).latch = 0#32 := rfl
@[simp] theorem resetEdge_cells (s : State) : (resetEdge s).cells = Vector.replicate 31 0#32 := rfl
@[simp] theorem resetEdge_inputs (s : State) : (resetEdge s).inputs = s.inputs := rfl
@[simp] theorem resetEdge_unsupplied (s : State) : (resetEdge s).unsupplied = s.unsupplied := rfl

/-! ### Loading the latch -/

@[simp] theorem loadLatch_latch (s : State) (w : Word) : (loadLatch s w).latch = w := rfl
@[simp] theorem loadLatch_cells (s : State) (w : Word) : (loadLatch s w).cells = s.cells := rfl
@[simp] theorem loadLatch_inputs (s : State) (w : Word) : (loadLatch s w).inputs = s.inputs := rfl
@[simp] theorem loadLatch_unsupplied (s : State) (w : Word) : (loadLatch s w).unsupplied = s.unsupplied := rfl

/-! ### Placing a word, supplying inputs -/

@[simp] theorem placeWord_latch (s : State) (w : Word) : (placeWord s w).latch = w := rfl
@[simp] theorem placeWord_cells (s : State) (w : Word) : (placeWord s w).cells = s.cells := rfl
@[simp] theorem placeWord_inputs (s : State) (w : Word) :
    (placeWord s w).inputs = ⟨0x00000013#32, false, true⟩ :: s.inputs := rfl
@[simp] theorem placeWord_unsupplied (s : State) (w : Word) : (placeWord s w).unsupplied = s.unsupplied := rfl
@[simp] theorem supply_latch (s : State) (ps : List StepInput) : (supply s ps).latch = s.latch := rfl
@[simp] theorem supply_cells (s : State) (ps : List StepInput) : (supply s ps).cells = s.cells := rfl
@[simp] theorem supply_inputs (s : State) (ps : List StepInput) : (supply s ps).inputs = ps := rfl
@[simp] theorem supply_unsupplied (s : State) (ps : List StepInput) : (supply s ps).unsupplied = s.unsupplied := rfl

/-! ### The outcome of an edge -/

@[simp] theorem latchAfter_next (w : Word) (s : State) : latchAfter w (.next s) = .next (loadLatch s w) := rfl
@[simp] theorem latchAfter_fault (w : Word) (f : Fault) : latchAfter w (.fault f) = .fault f := rfl
@[simp] theorem latchAfter_refused (w : Word) (r : Refusal) : latchAfter w (.refused r) = .refused r := rfl

end Sys2Proof.Machine
end

