-- ==== Sys2Proof/Laws/Registers.lean ====
section
/-! SUPPORT. What selecting and committing a register does (spec/46_regfile_readmux.md R201 to R206). -/

namespace Sys2Proof.Machine

@[simp] theorem selectRegister_zero (cells : Vector Word 31) : selectRegister cells 0 = 0#32 := rfl

theorem selectRegister_succ (cells : Vector Word 31) (k : Nat) (h : k < 31) :
    selectRegister cells (k + 1) = cells[k] := by
  simp [selectRegister, h]

/-- An index beyond 31 reads 0 (R206). -/
theorem selectRegister_outOfRange (cells : Vector Word 31) (n : Nat) (h : 32 ≤ n) : selectRegister cells n = 0#32 := by
  cases n with
  | zero => rfl
  | succ k => simp [selectRegister, Vector.getElem?_eq_none (show 31 ≤ k by omega)]

@[simp] theorem selectRegister_replicate (n : Nat) : selectRegister (Vector.replicate 31 0#32) n = 0#32 := by
  cases n with
  | zero => rfl
  | succ k =>
    by_cases h : k < 31
    · simp [selectRegister, h]
    · exact selectRegister_outOfRange _ _ (by omega)

/-- x0 reads zero in every state (R203). -/
@[simp] theorem readReg_x0 (s : State) : readReg s 0#5 = 0#32 := rfl

/-- Reading depends on the cells only. -/
theorem readReg_congr {s t : State} (h : s.cells = t.cells) (i : RegIndex) : readReg s i = readReg t i := by
  simp [readReg, h]

@[simp] theorem readReg_loadLatch (s : State) (w : Word) (i : RegIndex) : readReg (loadLatch s w) i = readReg s i := rfl
@[simp] theorem readReg_advanceInput (s : State) (i : RegIndex) : readReg (advanceInput s) i = readReg s i :=
  readReg_congr (advanceInput_cells s) i
@[simp] theorem readReg_supply (s : State) (ps : List StepInput) (i : RegIndex) :
    readReg (supply s ps) i = readReg s i := rfl
@[simp] theorem readReg_placeWord (s : State) (w : Word) (i : RegIndex) : readReg (placeWord s w) i = readReg s i := rfl
@[simp] theorem readReg_resetEdge (s : State) (i : RegIndex) : readReg (resetEdge s) i = 0#32 := by
  simp [readReg]
@[simp] theorem readReg_reset (i : RegIndex) : readReg State.reset i = 0#32 := by
  simp [readReg, State.reset]

/-- A write to x0 changes nothing (R203). -/
@[simp] theorem writeReg_x0 (s : State) (v : Word) : writeReg s 0#5 v = s := rfl

/-- Read after write: the written register gives the value, every other register what it held; x0 stays zero. -/
theorem readReg_writeReg (s : State) (rd i : RegIndex) (v : Word) :
    readReg (writeReg s rd v) i = if i = rd ∧ rd ≠ 0#5 then v else readReg s i := by
  have hrd : rd.toNat < 32 := rd.isLt
  have hi : i.toNat < 32 := i.isLt
  unfold writeReg readReg
  split
  next h0 =>
    have : rd = 0#5 := BitVec.eq_of_toNat_eq (by simpa using h0)
    simp [this]
  next k hk =>
    have hne : rd ≠ 0#5 := by rintro rfl; simp at hk
    by_cases hir : i = rd
    · subst hir
      simp [hk, hne, selectRegister, show k < 31 by omega]
    · have hkn : i.toNat ≠ k + 1 := fun h => hir (BitVec.eq_of_toNat_eq (by omega))
      simp only [hir, false_and, if_false]
      cases hj : i.toNat with
      | zero => rfl
      | succ j =>
        have : k ≠ j := by omega
        simp [selectRegister, this]

/-- Register reads determine the cells. -/
theorem cells_eq_of_readReg {s t : State} (h : ∀ i : RegIndex, readReg s i = readReg t i) : s.cells = t.cells := by
  refine Vector.ext fun k hk => ?_
  have hk' := h (BitVec.ofNat 5 (k + 1))
  have e : (BitVec.ofNat 5 (k + 1)).toNat = k + 1 := by simp; omega
  rw [readReg, readReg, e, selectRegister_succ _ _ hk, selectRegister_succ _ _ hk] at hk'
  exact hk'

/-- Two states with the same register reads and the same other fields are one. -/
theorem State.ext_readReg {s t : State} (hr : ∀ i : RegIndex, readReg s i = readReg t i) (hl : s.latch = t.latch)
    (hi : s.inputs = t.inputs) (hu : s.unsupplied = t.unsupplied) : s = t := by
  have hc := cells_eq_of_readReg hr
  cases s; cases t; simp_all

/-- Committing after another field changed is committing before it changed. -/
theorem writeReg_loadLatch (s : State) (rd : RegIndex) (v w : Word) :
    writeReg (loadLatch s w) rd v = loadLatch (writeReg s rd v) w := by
  unfold writeReg; split <;> rfl
theorem writeReg_supply (s : State) (rd : RegIndex) (v : Word) (ps : List StepInput) :
    writeReg (supply s ps) rd v = supply (writeReg s rd v) ps := by
  unfold writeReg; split <;> rfl

end Sys2Proof.Machine
end

