-- ==== Sys2Proof/Laws/Exec.lean ====
section
/-! SUPPORT. What an instruction and a clock edge can do, said once: later proofs cite these and unfold neither. -/

namespace Sys2Proof.Machine

/-! ### The shared shapes -/

theorem regImm_eq (f : Word → Word → Word) (rd rs1 : RegIndex) (imm : Imm12) (s : State) :
    regImm f rd rs1 imm s = .next (writeReg s rd (f (readReg s rs1) (imm.signExtend 32))) := rfl
theorem shiftImm_eq (f : Word → ShiftAmount → Word) (rd rs1 : RegIndex) (shamt : ShiftAmount) (s : State) :
    shiftImm f rd rs1 shamt s = .next (writeReg s rd (f (readReg s rs1) shamt)) := rfl
theorem regReg_eq (f : Word → Word → Word) (rd rs1 rs2 : RegIndex) (s : State) :
    regReg f rd rs1 rs2 s = .next (writeReg s rd (f (readReg s rs1) (readReg s rs2))) := rfl
theorem shiftReg_eq (f : Word → ShiftAmount → Word) (rd rs1 rs2 : RegIndex) (s : State) :
    shiftReg f rd rs1 rs2 s =
      .next (writeReg s rd (f (readReg s rs1) ((readReg s rs2).extractLsb' 0 5))) := rfl

/-- A commit changes the one register and nothing else. -/
theorem commitsOnly_writeReg (rd : RegIndex) (v : Word) (s : State) : CommitsOnly rd v s (writeReg s rd v) :=
  ⟨fun i => readReg_writeReg s rd i v, by simp, by simp, by simp⟩

/-- The register an instruction names as its destination; the no-op class names none and is given x0. -/
def destination : Instr → RegIndex
  | .addi rd _ _ | .slti rd _ _ | .sltiu rd _ _ | .xori rd _ _ | .ori rd _ _ | .andi rd _ _ => rd
  | .slli rd _ _ _ | .srli rd _ _ _ | .srai rd _ _ _ => rd
  | .add rd _ _ _ | .sub rd _ _ _ | .sll rd _ _ _ | .slt rd _ _ _ | .sltu rd _ _ _ => rd
  | .xor rd _ _ _ | .srl rd _ _ _ | .sra rd _ _ _ | .or rd _ _ _ | .and rd _ _ _ => rd
  | .nopOther _ => 0#5

/-- The value an instruction computes from the register cells; the no-op class computes none and is given zero. -/
def resultOf (i : Instr) (cells : Vector Word 31) : Word :=
  let x (r : RegIndex) : Word := selectRegister cells r.toNat
  match i with
  | .addi _ rs1 imm => Bits.add (x rs1) (immOperand imm)
  | .slti _ rs1 imm => Bits.lts (x rs1) (immOperand imm)
  | .sltiu _ rs1 imm => Bits.ltu (x rs1) (immOperand imm)
  | .xori _ rs1 imm => Bits.xor (x rs1) (immOperand imm)
  | .ori _ rs1 imm => Bits.or (x rs1) (immOperand imm)
  | .andi _ rs1 imm => Bits.and (x rs1) (immOperand imm)
  | .slli _ rs1 shamt _ => Bits.shl (x rs1) shamt
  | .srli _ rs1 shamt _ => Bits.shr (x rs1) shamt
  | .srai _ rs1 shamt _ => Bits.sra (x rs1) shamt
  | .add _ rs1 rs2 _ => Bits.add (x rs1) (x rs2)
  | .sub _ rs1 rs2 _ => Bits.sub (x rs1) (x rs2)
  | .sll _ rs1 rs2 _ => Bits.shl (x rs1) (regShiftAmount (x rs2))
  | .slt _ rs1 rs2 _ => Bits.lts (x rs1) (x rs2)
  | .sltu _ rs1 rs2 _ => Bits.ltu (x rs1) (x rs2)
  | .xor _ rs1 rs2 _ => Bits.xor (x rs1) (x rs2)
  | .srl _ rs1 rs2 _ => Bits.shr (x rs1) (regShiftAmount (x rs2))
  | .sra _ rs1 rs2 _ => Bits.sra (x rs1) (regShiftAmount (x rs2))
  | .or _ rs1 rs2 _ => Bits.or (x rs1) (x rs2)
  | .and _ rs1 rs2 _ => Bits.and (x rs1) (x rs2)
  | .nopOther _ => 0#32

/-- Every instruction commits one value, a function of the cells alone, to its destination. -/
theorem exec_eq_commit (i : Instr) (s : State) :
    exec i s = .next (writeReg s (destination i) (resultOf i s.cells)) := by
  cases i <;> rfl

/-! ### The clock edge -/

theorem step_of_reset {s : State} (h : (currentInput s).rst = true) : step s = .next (resetEdge (advanceInput s)) := by
  simp [step, clockEdge, h]

theorem step_of_hold {s : State} (hr : (currentInput s).rst = false) (he : (currentInput s).en = false) :
    step s = .next (advanceInput s) := by
  simp [step, clockEdge, hr, he]

theorem step_of_executes {s : State} (h : Executes s) :
    step s = latchAfter (currentInput s).instrIn (exec (decode s.latch) (advanceInput s)) := by
  simp [step, clockEdge, h.1, h.2]

/-- An executing step: one register committed, the latch loaded, the input consumed. -/
theorem step_eq_commit {s : State} (h : Executes s) :
    step s = .next (loadLatch
      (writeReg (advanceInput s) (destination (decode s.latch)) (resultOf (decode s.latch) s.cells))
      (currentInput s).instrIn) := by
  rw [step_of_executes h, exec_eq_commit]; simp

/-! ### Runs -/

theorem run_succ_of_step (M : Host.Core) {s t : M.State} (k : Nat) (h : M.step s = .next t) :
    M.run (k + 1) s = M.run k t := by
  simp [Host.Core.run, h]

theorem runSteps_zero (s : State) : runSteps 0 s = .next s := rfl

theorem runSteps_succ {s t : State} (k : Nat) (h : step s = .next t) : runSteps (k + 1) s = runSteps k t :=
  run_succ_of_step Sys2Proof.core k h

end Sys2Proof.Machine
end

