-- ==== Sys2Proof/Laws/PerInstr.lean ====
section
/-! SUPPORT. Statements for all instructions, one lemma per constructor. EncodedRow: the word of a well-formed
instruction carries the opcode and funct3 that the instruction's row of the opcode table fixes (30_encoding.md R60). -/

namespace Sys2Proof.Laws.EncodedRow

def Statement (i : Instr) : Prop :=
  i.wellFormed = true → match i.row with
    | some r => fOpcode (encode i) = fOpcode r.matchBits ∧ fFunct3 (encode i) = fFunct3 r.matchBits
    | none => isAluWord (encode i) = false

theorem addi (rd rs1 : RegIndex) (imm : Imm12) : Statement (.addi rd rs1 imm) := fun _ =>
  ⟨by rw [encode, fOpcode_encodeI]; decide, by rw [encode, fFunct3_encodeI]; decide⟩
theorem slti (rd rs1 : RegIndex) (imm : Imm12) : Statement (.slti rd rs1 imm) := fun _ =>
  ⟨by rw [encode, fOpcode_encodeI]; decide, by rw [encode, fFunct3_encodeI]; decide⟩
theorem sltiu (rd rs1 : RegIndex) (imm : Imm12) : Statement (.sltiu rd rs1 imm) := fun _ =>
  ⟨by rw [encode, fOpcode_encodeI]; decide, by rw [encode, fFunct3_encodeI]; decide⟩
theorem xori (rd rs1 : RegIndex) (imm : Imm12) : Statement (.xori rd rs1 imm) := fun _ =>
  ⟨by rw [encode, fOpcode_encodeI]; decide, by rw [encode, fFunct3_encodeI]; decide⟩
theorem ori (rd rs1 : RegIndex) (imm : Imm12) : Statement (.ori rd rs1 imm) := fun _ =>
  ⟨by rw [encode, fOpcode_encodeI]; decide, by rw [encode, fFunct3_encodeI]; decide⟩
theorem andi (rd rs1 : RegIndex) (imm : Imm12) : Statement (.andi rd rs1 imm) := fun _ =>
  ⟨by rw [encode, fOpcode_encodeI]; decide, by rw [encode, fFunct3_encodeI]; decide⟩
theorem slli (rd rs1 : RegIndex) (shamt : ShiftAmount) (g : BitVec 7) : Statement (.slli rd rs1 shamt g) := fun _ =>
  ⟨by rw [encode, fOpcode_encodeR]; decide, by rw [encode, fFunct3_encodeR]; decide⟩
theorem srli (rd rs1 : RegIndex) (shamt : ShiftAmount) (g : BitVec 6) : Statement (.srli rd rs1 shamt g) := fun _ =>
  ⟨by rw [encode, fOpcode_encodeR]; decide, by rw [encode, fFunct3_encodeR]; decide⟩
theorem srai (rd rs1 : RegIndex) (shamt : ShiftAmount) (g : BitVec 6) : Statement (.srai rd rs1 shamt g) := fun _ =>
  ⟨by rw [encode, fOpcode_encodeR]; decide, by rw [encode, fFunct3_encodeR]; decide⟩
theorem add (rd rs1 rs2 : RegIndex) (g : BitVec 6) : Statement (.add rd rs1 rs2 g) := fun _ =>
  ⟨by rw [encode, fOpcode_encodeR]; decide, by rw [encode, fFunct3_encodeR]; decide⟩
theorem sub (rd rs1 rs2 : RegIndex) (g : BitVec 6) : Statement (.sub rd rs1 rs2 g) := fun _ =>
  ⟨by rw [encode, fOpcode_encodeR]; decide, by rw [encode, fFunct3_encodeR]; decide⟩
theorem sll (rd rs1 rs2 : RegIndex) (g : BitVec 7) : Statement (.sll rd rs1 rs2 g) := fun _ =>
  ⟨by rw [encode, fOpcode_encodeR]; decide, by rw [encode, fFunct3_encodeR]; decide⟩
theorem slt (rd rs1 rs2 : RegIndex) (g : BitVec 7) : Statement (.slt rd rs1 rs2 g) := fun _ =>
  ⟨by rw [encode, fOpcode_encodeR]; decide, by rw [encode, fFunct3_encodeR]; decide⟩
theorem sltu (rd rs1 rs2 : RegIndex) (g : BitVec 7) : Statement (.sltu rd rs1 rs2 g) := fun _ =>
  ⟨by rw [encode, fOpcode_encodeR]; decide, by rw [encode, fFunct3_encodeR]; decide⟩
theorem xor (rd rs1 rs2 : RegIndex) (g : BitVec 7) : Statement (.xor rd rs1 rs2 g) := fun _ =>
  ⟨by rw [encode, fOpcode_encodeR]; decide, by rw [encode, fFunct3_encodeR]; decide⟩
theorem srl (rd rs1 rs2 : RegIndex) (g : BitVec 6) : Statement (.srl rd rs1 rs2 g) := fun _ =>
  ⟨by rw [encode, fOpcode_encodeR]; decide, by rw [encode, fFunct3_encodeR]; decide⟩
theorem sra (rd rs1 rs2 : RegIndex) (g : BitVec 6) : Statement (.sra rd rs1 rs2 g) := fun _ =>
  ⟨by rw [encode, fOpcode_encodeR]; decide, by rw [encode, fFunct3_encodeR]; decide⟩
theorem or (rd rs1 rs2 : RegIndex) (g : BitVec 7) : Statement (.or rd rs1 rs2 g) := fun _ =>
  ⟨by rw [encode, fOpcode_encodeR]; decide, by rw [encode, fFunct3_encodeR]; decide⟩
theorem and (rd rs1 rs2 : RegIndex) (g : BitVec 7) : Statement (.and rd rs1 rs2 g) := fun _ =>
  ⟨by rw [encode, fOpcode_encodeR]; decide, by rw [encode, fFunct3_encodeR]; decide⟩
theorem nopOther (w : Word) : Statement (.nopOther w) := fun h => by
  simpa [Instr.wellFormed, Instr.row, encode] using h

end Sys2Proof.Laws.EncodedRow
end

