-- ==== Sys2Proof/Tests/Slice0.lean ====
section
/-! SUPPORT. The model's own tests: expected values from spec/95_test_vectors.md and the examples of the rules, and for
each statement with hypotheses a state and operands that meet them. -/

namespace Sys2Proof.Tests

open Sys2Proof.Machine

/-! ### Helpers -/

/-- x6 and x7 set, every other register zero. -/
def twoRegs (x6 x7 : Word) : State := writeReg (writeReg State.reset 6#5 x6) 7#5 x7

/-- A register after the word's step from a state. -/
def regAfter (s : State) (w : Nat) (r : RegIndex) : Option Word :=
  match step (s.withFetchWord 32 w) with
  | .next t => some (readReg t r)
  | .fault _ => none
  | .refused _ => none

/-- x5 after the word's step from x6 and x7 (95_test_vectors.md sections 2.6, 2.7). -/
def x5After (w : Nat) (x6 x7 : Word) : Option Word := regAfter (twoRegs x6 x7) w 5#5

/-- The state an outcome holds, if it is one. -/
def stateOf : Host.Outcome State Fault Refusal → Option State
  | .next t => some t
  | .fault _ => none
  | .refused _ => none

/-- The word an outcome of the BitWord layer holds, if it is one. -/
def wordOf : Host.Outcome BitWord Fault Refusal → Option BitWord
  | .next t => some t
  | .fault _ => none
  | .refused _ => none

/-- The fault an outcome of the BitWord layer stops with, if it does. -/
def faultOf : Host.Outcome BitWord Fault Refusal → Option Fault
  | .next _ => none
  | .fault f => some f
  | .refused _ => none

/-- The refusal an outcome of the BitWord layer stops with, if it does. -/
def refusalOf : Host.Outcome BitWord Fault Refusal → Option Refusal
  | .next _ => none
  | .fault _ => none
  | .refused r => some r

/-! ### WellFormed: an ill-formed term for the check -/

theorem test_illFormed_nopOther_immOpcode : (Instr.nopOther 0x00500093#32).wellFormed = false := by decide
theorem test_illFormed_nopOther_regOpcode : (Instr.nopOther 0x007302B3#32).wellFormed = false := by decide
theorem test_wellFormed_nopOther : (Instr.nopOther 0x00000073#32).wellFormed = true := by decide

/-! ### Decoding: words assembled by hand from the fields of 30_encoding.md R51, R60, R61 -/

theorem test_decode_addi : decode (0b111111111111_00110_000_00101_0010011#32) = .addi 5 6 0xFFF#12 := by decide
theorem test_decode_slti : decode (0b111111111110_00110_010_00101_0010011#32) = .slti 5 6 0xFFE#12 := by decide
theorem test_decode_sltiu : decode (0b000000000001_00110_011_00101_0010011#32) = .sltiu 5 6 1#12 := by decide
theorem test_decode_xori : decode (0b100000000000_00110_100_00101_0010011#32) = .xori 5 6 0x800#12 := by decide
theorem test_decode_ori : decode (0b000011110000_00110_110_00101_0010011#32) = .ori 5 6 0x0F0#12 := by decide
theorem test_decode_andi : decode (0b111111110000_00110_111_00101_0010011#32) = .andi 5 6 0xFF0#12 := by decide
theorem test_decode_slli : decode (0b0000000_11111_00110_001_00101_0010011#32) = .slli 5 6 31 0 := by decide
theorem test_decode_srli : decode (0b1000000_00100_00110_101_00101_0010011#32) = .srli 5 6 4 0b100000#6 := by decide
theorem test_decode_srai : decode (0b0100001_00100_00110_101_00101_0010011#32) = .srai 5 6 4 0b000001#6 := by decide
theorem test_decode_add : decode (0b0000000_00111_00110_000_00101_0110011#32) = .add 5 6 7 0 := by decide
theorem test_decode_sub : decode (0b0100000_00111_00110_000_00101_0110011#32) = .sub 5 6 7 0 := by decide
theorem test_decode_sll : decode (0b0000000_00111_00110_001_00101_0110011#32) = .sll 5 6 7 0 := by decide
theorem test_decode_slt : decode (0b0000000_00111_00110_010_00101_0110011#32) = .slt 5 6 7 0 := by decide
theorem test_decode_sltu : decode (0b0000000_00111_00110_011_00101_0110011#32) = .sltu 5 6 7 0 := by decide
theorem test_decode_xor : decode (0b0100000_00010_00001_100_00011_0110011#32) = .xor 3 1 2 0b0100000#7 := by decide
theorem test_decode_srl : decode (0b0000000_00111_00110_101_00101_0110011#32) = .srl 5 6 7 0 := by decide
theorem test_decode_sra : decode (0b0100000_00111_00110_101_00101_0110011#32) = .sra 5 6 7 0 := by decide
theorem test_decode_or : decode (0b0000000_00111_00110_110_00101_0110011#32) = .or 5 6 7 0 := by decide
theorem test_decode_and : decode (0b0000000_00111_00110_111_00101_0110011#32) = .and 5 6 7 0 := by decide
theorem test_decode_beq : decode 0x00208463#32 = .nopOther 0x00208463#32 := by decide

theorem test_encode_addi : encode (.addi 5 6 0xFFF#12) = 0xFFF30293#32 := by decide
theorem test_encode_srai : encode (.srai 5 6 2 0) = 0x40235293#32 := by decide
theorem test_encode_sub : encode (.sub 5 6 7 0) = 0x407302B3#32 := by decide

theorem test_decodeTableWord : decodeTableWord 32 0x407302B3 = some (.sub 5 6 7 0) := by decide
theorem test_decodeTableWord_shortRow : decodeTableWord 24 0x30293 = some (.addi 5 6 0) := by decide
theorem test_decodeTableWord_refuses : decodeTableWord 48 0x13 = none ∧ decodeTableWord 32 (2 ^ 32) = none := by decide

/-! ### Instructions, one step each (95_test_vectors.md sections 2.6, 2.7) -/

theorem test_addi_wraps : x5After 0xFFF30293 0 0xA5A5A5A5 = some 0xFFFFFFFF := by decide
theorem test_addi_mode_ignored : x5After 0x40030293 0 0xA5A5A5A5 = some 0x00000400 := by decide
theorem test_slti_both_negative : x5After 0xFFF32293 0xFFFFFFFE 0 = some 1 := by decide
theorem test_slti_both_negative_not_less : x5After 0xFFE32293 0xFFFFFFFF 0 = some 0 := by decide
theorem test_sltiu_sign_extends : x5After 0xFFF33293 0xFFFFFFFE 0 = some 1 := by decide
theorem test_sltiu_equal : x5After 0xFFF33293 0xFFFFFFFF 0 = some 0 := by decide
theorem test_xori_not : x5After 0xFFF34293 0x0F0F0F0F 0 = some 0xF0F0F0F0 := by decide
theorem test_ori_sign_extends : x5After 0x80036293 1 0 = some 0xFFFFF801 := by decide
theorem test_andi : x5After 0xFF037293 0x12345678 0 = some 0x12345670 := by decide
theorem test_slli_31 : x5After 0x01F31293 3 0 = some 0x80000000 := by decide
theorem test_slli_mode_ignored : x5After 0x40431293 1 0 = some 0x10 := by decide
theorem test_srli : x5After 0x00435293 0x80000000 0 = some 0x08000000 := by decide
theorem test_srli_bit31_ignored : x5After 0x80435293 0x80000000 0 = some 0x08000000 := by decide
theorem test_srai_golden : x5After 0x40235293 0xFFFFFFF0 0 = some 0xFFFFFFFC := by decide
theorem test_srai_31 : x5After 0x41F35293 0x7FFFFFFF 0 = some 0 := by decide
theorem test_add_overflow : x5After 0x007302B3 0x7FFFFFFF 1 = some 0x80000000 := by decide
theorem test_mul_runs_as_add : regAfter (writeReg (writeReg State.reset 1 6) 2 7) 0x022081B3 3 = some 0xD := by decide
theorem test_sub_golden : x5After 0x407302B3 0x202 0x101 = some 0x101 := by decide
theorem test_sub_wraps : x5After 0x407302B3 0 1 = some 0xFFFFFFFF := by decide
theorem test_sll_low_five : x5After 0x007312B3 1 0x21 = some 2 := by decide
theorem test_slt_both_negative : x5After 0x007322B3 0xFFFFFFFE 0xFFFFFFFF = some 1 := by decide
theorem test_slt_both_negative_not_less : x5After 0x007322B3 0xFFFFFFFF 0xFFFFFFFE = some 0 := by decide
theorem test_sltu : x5After 0x007332B3 0x80000000 0x7FFFFFFF = some 0 := by decide
theorem test_xor : x5After 0x007342B3 0xFF00FF00 0x0FF00FF0 = some 0xF0F0F0F0 := by decide
theorem test_srl_low_five : x5After 0x007352B3 0xFFFFFFF0 0x22 = some 0x3FFFFFFC := by decide
theorem test_sra_low_five : x5After 0x407352B3 0xFFFFFFF0 0x22 = some 0xFFFFFFFC := by decide
theorem test_or : x5After 0x007362B3 0xF0000000 0xF = some 0xF000000F := by decide
theorem test_and : x5After 0x007372B3 0xFFFF0000 0x00FFFF00 = some 0x00FF0000 := by decide
theorem test_jal_writes_nothing : regAfter State.reset 0x010000EF 1 = some 0 := by decide
theorem test_lui_writes_nothing : x5After 0x123452B7 9 9 = some 0 := by decide
/-- 46_regfile_readmux.md R210: the source that is the destination is read before it is written; rd = x0 drops. -/
theorem test_add_reads_before_writing : regAfter (writeReg State.reset 6 0x10) 0x00630333 6 = some 0x20 := by decide
theorem test_add_x0_drops : stateOf (step ((twoRegs 5 9).withFetchWord 32 0x00630033)) =
    some { twoRegs 5 9 with latch := 0x13 } := by decide

/-! ### Reset, enable and the latch (95_test_vectors.md section 2.10, 41_decoder.md R111) -/

/-- The start of every row of section 2.10, with the row's rst and en. -/
def row210 (rst en : Bool) : State :=
  { writeReg (writeReg State.reset 1 9) 2 2 with latch := 0x00500093, inputs := [⟨0x00A00113, rst, en⟩] }

def row210After (rst en : Bool) : Option (Word × Word × Word) :=
  (stateOf (step (row210 rst en))).map fun t => (readReg t 1, readReg t 2, t.latch)

theorem test_hold : row210After false false = some (9, 2, 0x00500093) := by decide
theorem test_execute : row210After false true = some (5, 2, 0x00A00113) := by decide
theorem test_reset : row210After true false = some (0, 0, 0) := by decide
theorem test_reset_wins : row210After true true = some (0, 0, 0) := by decide

/-- 95_test_vectors.md section 1.2: two edges from presenting a word to its register. -/
theorem test_end_to_end :
    (stateOf (runSteps 3 (supply State.powerOn (canonicalDriver [0x00500093])))).map (readReg · 1) = some 5 := by
  decide

/-! ### Decoder, demultiplexer and outputs (95_test_vectors.md sections 2.5, 2.8) -/

theorem test_control_srai : decodeControl 0x40235293 true = ⟨true, true, 0x13, 6, 2, 5, 0x402, 0b101⟩ := by decide
theorem test_control_beq : decodeControl 0x00208463 true = ⟨false, false, 0x63, 1, 2, 8, 0x002, 0⟩ := by decide
theorem test_control_off : decodeControl 0x00500093 false = DecodedControl.off := by decide

/-- x1 = 3, x2 = 4, a word latched (section 2.8). -/
def row28 (w : Word) : State := { writeReg (writeReg State.reset 1 3) 2 4 with latch := w }

theorem test_output_ebreak_ungated : aluResultOutput .ungated true (row28 0x00100073) = 3 := by decide
theorem test_output_beq_ungated : aluResultOutput .ungated true (row28 0x00208463) = 7 := by decide
theorem test_output_beq_zero : aluResultOutput .zero true (row28 0x00208463) = 0 := by decide
theorem test_output_regs : (outputs (row28 0)).regs[2] = 4 ∧ (outputs (row28 0)).regs[0] = 0 := by decide

/-! ### Primitives at other widths (95_test_vectors.md sections 2.1 to 2.4) -/

theorem test_add_4 : Bits.add 7#4 1#4 = 8#4 := by decide
theorem test_sra_beyond_width : Bits.sra 0x81#8 9#4 = 0xFF#8 ∧ Bits.shr 0x81#8 8#4 = 0#8 := by decide
theorem test_signExtend : wordOf (BitWord.signExtend 8 ⟨4, 0xA⟩) = some ⟨8, 0xFA⟩ := by decide
theorem test_zeroExtend : wordOf (BitWord.zeroExtend 16 ⟨8, 0x80⟩) = some ⟨16, 0x80⟩ := by decide
theorem test_extendNarrower : faultOf (BitWord.signExtend 8 ⟨12, 0xFFF⟩) = some .extendNarrower := by decide
theorem test_widthMismatch : faultOf (BitWord.add ⟨4, 1⟩ ⟨8, 1⟩) = some .widthMismatch := by decide
theorem test_sliceOutOfRange : faultOf (BitWord.slice ⟨8, 0x81⟩ 8 0) = some .sliceOutOfRange := by decide
theorem test_bitWord_sub : wordOf (BitWord.sub ⟨4, 1⟩ ⟨4, 2⟩) = some ⟨4, 0xF⟩ := by decide
theorem test_bitWord_shift : BitWord.shiftRightArithmetic ⟨8, 0x80⟩ ⟨3, 7⟩ = ⟨8, 0xFF⟩ := by decide
theorem test_slice : wordOf (BitWord.slice ⟨8, 0x81⟩ 7 4) = some ⟨4, 8⟩ := by decide
theorem test_literal : wordOf (BitWord.literal 4 (-8)) = some ⟨4, 8⟩ ∧ wordOf (BitWord.literal 4 15) = some ⟨4, 0xF⟩ := by
  decide
theorem test_literalOutOfRange : refusalOf (BitWord.literal 4 16) = some .literalOutOfRange := by decide
theorem test_zeroWidth : refusalOf (BitWord.literal 0 0) = some .zeroWidth := by decide

/-! ### Canonical words (30_encoding.md R61) -/

theorem test_canonical : canonicalWord 0x407302B3 = true ∧ canonicalWord 0x00208463 = true := by decide
theorem test_not_canonical : canonicalWord 0x022081B3 = false ∧ canonicalWord 0x40431293 = false := by decide

/-! ### Witnesses: each statement's hypotheses are met together -/

/-- A state with a word latched and one input supplied. -/
def latched (w : Word) (p : StepInput) : State := { twoRegs 5 9 with latch := w, inputs := [p] }

theorem witness_AddImmediateResult : 0xFFF30293#32 &&& 0x0000707F#32 = 0x00000013#32 := by decide
theorem witness_AddRegisterResult : 0x822081B3#32 &&& 0x4000707F#32 = 0x00000033#32 := by decide
theorem witness_SubtractResult : 0x407302B3#32 &&& 0x4000707F#32 = 0x40000033#32 := by decide
theorem witness_SetLessThanSignedResult :
    0xFFF32293#32 &&& 0x0000707F#32 = 0x00002013#32 ∧ 0x007322B3#32 &&& 0x0000707F#32 = 0x00002033#32 := by decide
theorem witness_SetLessThanUnsignedResult :
    0xFFF33293#32 &&& 0x0000707F#32 = 0x00003013#32 ∧ 0x007332B3#32 &&& 0x0000707F#32 = 0x00003033#32 := by decide
theorem witness_ExclusiveOrResult :
    0xFFF34293#32 &&& 0x0000707F#32 = 0x00004013#32 ∧ 0x4020C1B3#32 &&& 0x0000707F#32 = 0x00004033#32 := by decide
theorem witness_InclusiveOrResult :
    0x0F036293#32 &&& 0x0000707F#32 = 0x00006013#32 ∧ 0x007362B3#32 &&& 0x0000707F#32 = 0x00006033#32 := by decide
theorem witness_BitwiseAndResult :
    0xFF037293#32 &&& 0x0000707F#32 = 0x00007013#32 ∧ 0x007372B3#32 &&& 0x0000707F#32 = 0x00007033#32 := by decide
theorem witness_ShiftLeftResult :
    0x01F31293#32 &&& 0x0000707F#32 = 0x00001013#32 ∧ 0x007312B3#32 &&& 0x0000707F#32 = 0x00001033#32 := by decide
theorem witness_ShiftRightLogicalResult :
    0x80435293#32 &&& 0x4000707F#32 = 0x00005013#32 ∧ 0x007352B3#32 &&& 0x4000707F#32 = 0x00005033#32 := by decide
theorem witness_ShiftRightArithmeticResult :
    0x42435293#32 &&& 0x4000707F#32 = 0x40005013#32 ∧ 0x407352B3#32 &&& 0x4000707F#32 = 0x40005033#32 := by decide

theorem witness_NonAluWordIsNoOp :
    (0x00208463#32).extractLsb' 0 7 ≠ 0x13#7 ∧ (0x00208463#32).extractLsb' 0 7 ≠ 0x33#7 ∧
    (latched 0x00208463 ⟨0x13, false, true⟩).latch = 0x00208463 ∧
    (currentInput (latched 0x00208463 ⟨0x13, false, true⟩)).en = true := by decide
theorem witness_StepRunsDecodedInstruction :
    (currentInput (latched 0x007302B3 ⟨0x13, false, true⟩)).en = true ∧
    (currentInput (latched 0x007302B3 ⟨0x13, false, true⟩)).rst = false ∧
    decode (latched 0x007302B3 ⟨0x13, false, true⟩).latch = .add 5 6 7 0 ∧
    (stateOf (exec (.add 5 6 7 0) (advanceInput (latched 0x007302B3 ⟨0x13, false, true⟩)))).isSome = true := by decide
theorem witness_ImmediateFamilyFrame :
    (latched 0x00500093 ⟨0x13, false, true⟩).latch.extractLsb' 0 7 = 0x13#7 ∧
    (currentInput (latched 0x00500093 ⟨0x13, false, true⟩)).en = true ∧
    (currentInput (latched 0x00500093 ⟨0x13, false, true⟩)).rst = false ∧
    (currentInput (latched 0x00500093 ⟨0x13, true, true⟩)).rst = true := by decide
theorem witness_RegisterFamilyFrame :
    (latched 0x007302B3 ⟨0x13, false, true⟩).latch.extractLsb' 0 7 = 0x33#7 ∧
    (currentInput (latched 0x007302B3 ⟨0x13, false, true⟩)).en = true ∧
    (currentInput (latched 0x007302B3 ⟨0x13, false, true⟩)).rst = false ∧
    (0x407#12).getLsbD 10 = (0x407302B3#32).getLsbD 30 ∧
    (currentInput (latched 0x007302B3 ⟨0x13, true, true⟩)).rst = true := by decide
theorem witness_SingleWriteEnable :
    writeEnable (decodeControl 0x00500093 true) 0 = true ∧ (decodeControl 0x00500093 true).rdIndex ≠ 0#5 ∧
    writeEnable (decodeControl 0x01F31F93 true) 30 = true := by decide
theorem witness_EnableLowHoldsState :
    (currentInput (row210 false false)).en = false ∧ (currentInput (row210 false false)).rst = false := by decide
theorem witness_EnableLowStepsTransparent :
    ∀ p ∈ [(⟨0x00100093, false, false⟩ : StepInput), ⟨0x13, false, false⟩], p.en = false ∧ p.rst = false := by decide
theorem witness_ResetStepClears : (currentInput (row210 true true)).rst = true := by decide
theorem witness_HeldResetIsOneReset :
    [(⟨0, true, false⟩ : StepInput), ⟨0x00500093, true, true⟩] ≠ [] ∧
    ∀ p ∈ [(⟨0, true, false⟩ : StepInput), ⟨0x00500093, true, true⟩], p.rst = true := by decide
theorem witness_FirstStepAfterResetIsNoOp :
    (currentInput (supply (row210 true true) [resetInput, present 0x00500093])).rst = true ∧
    (stateOf (step (supply (row210 true true) [resetInput, present 0x00500093]))).map (fun t => (currentInput t).rst) =
      some false := by decide
theorem witness_CanonicalDriverRunsEveryWord : 2 ≤ [0x00500093#32, 0x00630333#32].length := by decide
theorem witness_PresentedWordRunsInNextEnabledStep :
    (present 0x00500093).en = true ∧ (present 0x00500093).rst = false ∧
    (∀ l ∈ [(⟨0x00100093, false, false⟩ : StepInput)], l.en = false ∧ l.rst = false) ∧
    (present 0x13).en = true ∧ (present 0x13).rst = false := by decide
theorem witness_RegisterZeroImmutable : (0x00630033#32).extractLsb' 7 5 = 0#5 := by decide
theorem witness_DecodeOfEncode :
    (Instr.sra 31 31 31 0x3F#6).wellFormed = true ∧ (Instr.nopOther 0xFFFFFFFF#32).wellFormed = true := by decide
/-- Clause by clause: mul and add; xor with instr[30] set and plain; srai with instr[25] set and plain; slli with
instr[30] set and plain. -/
theorem witness_UndecodedBitsHaveNoEffect :
    ((0x022081B3#32).extractLsb' 0 7 = 0x33#7 ∧ 0x022081B3#32 &&& 0x41FFFFFF#32 = 0x002081B3#32 &&& 0x41FFFFFF#32) ∧
    ((0x4020C1B3#32).extractLsb' 0 7 = 0x33#7 ∧ (0x4020C1B3#32).extractLsb' 12 3 ≠ 0b000#3 ∧
      (0x4020C1B3#32).extractLsb' 12 3 ≠ 0b101#3 ∧
      0x4020C1B3#32 &&& 0x01FFFFFF#32 = 0x0020C1B3#32 &&& 0x01FFFFFF#32) ∧
    ((0x42435293#32).extractLsb' 0 7 = 0x13#7 ∧ (0x42435293#32).extractLsb' 12 3 = 0b101#3 ∧
      0x42435293#32 &&& 0x41FFFFFF#32 = 0x40435293#32 &&& 0x41FFFFFF#32) ∧
    ((0x40431293#32).extractLsb' 0 7 = 0x13#7 ∧ (0x40431293#32).extractLsb' 12 3 = 0b001#3 ∧
      0x40431293#32 &&& 0x01FFFFFF#32 = 0x00431293#32 &&& 0x01FFFFFF#32) := by decide
theorem witness_AluResultOutputValue :
    isAluWord (row28 0x002081B3).latch = true ∧ isAluWord (row28 0x00208463).latch = false := by decide
theorem witness_AdderRipplesCarry : (31 : Nat) < 32 ∧ carryInto 0xFFFFFFFF#32 1#32 31 = true := by decide
theorem witness_SubtractorRipplesBorrow : (31 : Nat) < 32 ∧ borrowInto 0#32 1#32 31 = true := by decide
theorem witness_GatesAndShiftersBitwise : (7 : Nat) < 8 ∧ Bits.sra 0x81#8 9#4 = 0xFF#8 := by decide
theorem witness_ComparatorRelation : (1 : Nat) ≤ 1 ∧ Bits.lts 1#1 0#1 = 1#1 := by decide
theorem witness_ExtensionKeepsValueOrFaults :
    (⟨12, 0x800⟩ : BitWord).wf = true ∧ 8 < (⟨12, 0x800⟩ : BitWord).width ∧ (⟨12, 0x800⟩ : BitWord).width ≤ 12 := by
  decide
theorem witness_LiteralAndSliceBounds :
    (1 ≤ 4 ∧ (-(2 ^ (4 - 1) : Int) ≤ -8 ∧ (-8 : Int) < 2 ^ 4) ∧ (-(2 ^ (4 - 1) : Int) ≤ 15 ∧ (15 : Int) < 2 ^ 4)) ∧
    (¬(-(2 ^ (4 - 1) : Int) ≤ 16 ∧ (16 : Int) < 2 ^ 4) ∧ ¬(-(2 ^ (4 - 1) : Int) ≤ -9 ∧ (-9 : Int) < 2 ^ 4)) ∧
    (7 < (⟨8, 0x81⟩ : BitWord).width ∧ 7 ≤ 7) ∧ ¬(8 < (⟨8, 0x81⟩ : BitWord).width ∧ 0 ≤ 8) := by decide
theorem witness_WidthMismatchFaults : (⟨4, 1⟩ : BitWord).width ≠ (⟨8, 1⟩ : BitWord).width := by decide
/-- Law by law: two words of width 1, an extension to the same width, an amount one below the width, equal words. -/
theorem witness_PrimitiveLaws :
    ((⟨1, 1⟩ : BitWord).wf = true ∧ (⟨1, 1⟩ : BitWord).width = (⟨1, 1⟩ : BitWord).width ∧
      (⟨1, 1⟩ : BitWord).width ≤ 1) ∧
    ((⟨8, 0x81⟩ : BitWord).wf = true ∧ (⟨4, 7⟩ : BitWord).wf = true ∧
      (⟨4, 7⟩ : BitWord).toNumber < (⟨8, 0x81⟩ : BitWord).width) := by decide

/-- x6 holds 5; the latched word and the supplied ones write x5 and nothing resets. -/
def shelteredExample : State :=
  { twoRegs 5 9 with latch := 0x007302B3, inputs := [present 0x00430293, ⟨0x007302B3, false, false⟩] }

theorem witness_ShelteredRegisterStaysSheltered :
    (readReg shelteredExample 6 = 5 ∧ targets shelteredExample.latch 6 = false ∧
      ∀ p ∈ shelteredExample.inputs, p.rst = false ∧ targets p.instrIn 6 = false) ∧
    shelteredExample.inputs ≠ [] ∧ (stateOf (step shelteredExample)).isSome = true := by decide
theorem witness_CanonicalStreamKept :
    (canonicalWord shelteredExample.latch = true ∧ ∀ p ∈ shelteredExample.inputs, canonicalWord p.instrIn = true) ∧
    shelteredExample.inputs ≠ [] ∧ (stateOf (step shelteredExample)).isSome = true := by decide
theorem witness_AssemblerRanges :
    ((-2048 : Int) ≤ -2048 ∧ (-2048 : Int) ≤ 2047) ∧ ¬((-2048 : Int) ≤ 2048 ∧ (2048 : Int) ≤ 2047) ∧
    ((0 : Int) ≤ 31 ∧ (31 : Int) ≤ 31) ∧ ¬((0 : Int) ≤ 32 ∧ (32 : Int) ≤ 31) := by decide
theorem witness_PseudoInstructionResults :
    ((-2048 : Int) ≤ 2047 ∧ (2047 : Int) ≤ 2047) ∧ ¬((-2048 : Int) ≤ -2049 ∧ (-2049 : Int) ≤ 2047) := by decide
/-- Every register but x0 is a case of the cell rule. -/
theorem witness_RegisterCellUpdate : (31#5 : RegIndex) ≠ 0#5 ∧ (1#5 : RegIndex) ≠ 0#5 := by decide
/-- A second register is left alone. -/
theorem witness_AtMostOneRegisterWritten : (6#5 : RegIndex) ≠ 5#5 := by decide

end Sys2Proof.Tests
end

section

namespace Sys2Proof.Machine

/-! ### The destination of a decoded word -/

theorem destination_decodeImm (w : Word) : destination (decodeImm w) = fRd w := by
  unfold decodeImm
  cases AluOp.ofBits (fFunct3 w) with
  | sr => dsimp only; split <;> rfl
  | _ => rfl

theorem destination_decodeReg (w : Word) : destination (decodeReg w) = fRd w := by
  unfold decodeReg
  cases AluOp.ofBits (fFunct3 w) with
  | add | sr => dsimp only; split <;> rfl
  | _ => rfl

/-- An ALU word commits to its rd field; any other word to x0, which is no cell (45_non_alu.md R190). -/
theorem destination_decode (w : Word) : destination (decode w) = if isAluWord w then fRd w else 0#5 := by
  by_cases himm : fOpcode w = Config.opcodeImm
  · simp [decode_of_opcodeImm himm, destination_decodeImm, isAluWord_eq, himm]
  · by_cases hreg : fOpcode w = Config.opcodeReg
    · simp [decode_of_opcodeReg hreg, destination_decodeReg, isAluWord_eq, hreg]
    · have hnon : isAluWord w = false := by simp [isAluWord_eq, himm, hreg]
      simp [decode_of_nonAlu hnon, hnon, destination]

/-- The commit of a word that does not assert r's write-enable line leaves r as it was
(46_regfile_readmux.md R201, R202). -/
theorem readReg_commit_of_not_targets {w : Word} {r : RegIndex} (h : targets w r = false) (s : State) (x : Word) :
    readReg (writeReg s (destination (decode w)) x) r = readReg s r := by
  rw [readReg_writeReg, destination_decode]
  by_cases ha : isAluWord w
  · have hne : r ≠ fRd w := by
      rintro rfl
      simp [targets, ha] at h
    simp [ha, hne]
  · simp [ha]

/-! ### Sheltered under each operation of a step -/

section Sheltered
variable {r : RegIndex} {v : Word} {s : State}

theorem sheltered_advanceInput (h : Sheltered r v s) (hne : s.inputs ≠ []) : Sheltered r v (advanceInput s) := by
  obtain ⟨hread, hlatch, hinputs⟩ := h
  obtain ⟨p, ps, hps⟩ := List.exists_cons_of_ne_nil hne
  refine ⟨by simpa using hread, by simpa using hlatch, fun q hq => hinputs q ?_⟩
  rw [advanceInput_cons hps] at hq
  exact hps ▸ List.mem_cons_of_mem p hq

theorem sheltered_commit (h : Sheltered r v s) (x : Word) :
    Sheltered r v (writeReg s (destination (decode s.latch)) x) := by
  obtain ⟨hread, hlatch, hinputs⟩ := h
  exact ⟨(readReg_commit_of_not_targets hlatch s x).trans hread, by simpa using hlatch, by simpa using hinputs⟩

theorem sheltered_loadLatch {w : Word} (h : Sheltered r v s) (hw : targets w r = false) :
    Sheltered r v (loadLatch s w) := by
  obtain ⟨hread, _, hinputs⟩ := h
  exact ⟨hread, hw, hinputs⟩

/-- The supplied input a sheltered state is about to consume neither resets nor targets r. -/
theorem currentInput_of_sheltered (h : Sheltered r v s) (hne : s.inputs ≠ []) :
    (currentInput s).rst = false ∧ targets (currentInput s).instrIn r = false := by
  obtain ⟨_, _, hinputs⟩ := h
  obtain ⟨p, ps, hps⟩ := List.exists_cons_of_ne_nil hne
  rw [currentInput_cons hps]
  exact hinputs p (by simp [hps])

end Sheltered

/-- Settles O47: a supplied step either holds or commits and loads the latch, and each of these keeps the invariant. -/
theorem shelteredRegisterStaysSheltered : Obligations.ShelteredRegisterStaysSheltered := by
  intro r v s t hs hne hstep
  obtain ⟨hrst, hword⟩ := currentInput_of_sheltered hs hne
  have hadv := sheltered_advanceInput hs hne
  cases hen : (currentInput s).en with
  | false =>
    obtain rfl : advanceInput s = t := by simpa [step_of_hold hrst hen] using hstep
    exact hadv
  | true =>
    have hcommit := sheltered_commit hadv (resultOf (decode s.latch) s.cells)
    rw [advanceInput_latch] at hcommit
    rw [step_eq_commit ⟨hen, hrst⟩] at hstep
    cases hstep
    exact sheltered_loadLatch hcommit hword

/-! ### What an instruction writes and reads -/

/-- Settles O30: the one register is the instruction's destination. -/
theorem atMostOneRegisterWritten : Obligations.AtMostOneRegisterWritten := by
  intro i s
  obtain ⟨hregs, hframe⟩ := commitsOnly_writeReg (destination i) (resultOf i s.cells) s
  refine ⟨_, destination i, exec_eq_commit i s, fun j hj => ?_, hframe⟩
  rw [hregs, if_neg fun h => hj h.1]

/-- An instruction's commit commutes with replacing the latch and the pending inputs: its value is a function of the
cells alone. -/
theorem exec_supply_loadLatch (i : Instr) (s : State) (w : Word) (ps : List StepInput) :
    exec i (supply (loadLatch s w) ps) =
      .next (supply (loadLatch (writeReg s (destination i) (resultOf i s.cells)) w) ps) := by
  rw [exec_eq_commit, writeReg_supply, writeReg_loadLatch, supply_cells, loadLatch_cells]

/-- Settles O31: both runs commit the same value to the same register. -/
theorem latchNotReadByInstructions : Obligations.LatchNotReadByInstructions := fun i s w ps =>
  ⟨_, exec_eq_commit i s, exec_supply_loadLatch i s w ps⟩

end Sys2Proof.Machine
end

section

namespace Sys2Proof.Machine

/-! ### Decoding an assembled word

The fields of an assembled word are its parts (Laws/Decode.lean). Left to say is what the decoder reads out of a top
field built around a mode bit, and which half of the decoder an assembled word's opcode selects. -/

section Assembled
variable (imm : Imm12) (top : BitVec 7) (g : BitVec 6) (m : BitVec 1) (f20 rs1 rd : RegIndex) (op : AluOp)

@[simp] theorem fMode_encodeR_topWithMode (opc : Opcode) :
    fMode (encodeR (topWithMode g m) f20 rs1 op rd opc) = m.getLsbD 0 := by
  rw [fMode_eq, fIgnored7_encodeR, topWithMode_mode]

@[simp] theorem fIgnored6_encodeR_topWithMode (opc : Opcode) :
    fIgnored6 (encodeR (topWithMode g m) f20 rs1 op rd opc) = g := by
  rw [fIgnored6_eq, fIgnored7_encodeR, topWithMode_ignored]

theorem decode_encodeI : decode (encodeI imm rs1 op rd) = decodeImm (encodeI imm rs1 op rd) :=
  decode_of_opcodeImm (fOpcode_encodeI ..)

theorem decode_encodeR_opcodeImm :
    decode (encodeR top f20 rs1 op rd Config.opcodeImm) = decodeImm (encodeR top f20 rs1 op rd Config.opcodeImm) :=
  decode_of_opcodeImm (fOpcode_encodeR ..)

theorem decode_encodeR_opcodeReg :
    decode (encodeR top f20 rs1 op rd Config.opcodeReg) = decodeReg (encodeR top f20 rs1 op rd Config.opcodeReg) :=
  decode_of_opcodeReg (fOpcode_encodeR ..)

end Assembled

/-- Settles O32: by layout, the decoder's half for the opcode reads every part back, and a well-formed no-op holds a
non-ALU word. -/
theorem decodeOfEncode : Obligations.DecodeOfEncode := by
  intro i hwf
  cases i with
  | addi | slti | sltiu | xori | ori | andi => simp [encode, decode_encodeI, decodeImm]
  | slli | srli | srai => simp [encode, decode_encodeR_opcodeImm, decodeImm]
  | add | sub | sll | slt | sltu | xor | srl | sra | or | and => simp [encode, decode_encodeR_opcodeReg, decodeReg]
  | nopOther w => exact decode_of_nonAlu (Laws.EncodedRow.nopOther w hwf)

/-! ### Encoding a decoded word

Each arm of the decoder stores the word's own fields, so the encoder puts the word together again from them. -/

section Decoded
variable {w : Word} {op : AluOp} {opc : Opcode}

/-- A word is its fields also where the mode bit is stated apart from the six undecoded bits (30_encoding.md R52,
R57). -/
theorem encodeR_fields_topWithMode {m : BitVec 1} (hm : m = BitVec.ofBool (fMode w)) (ho : fOpcode w = opc)
    (hf : op.toBits = fFunct3 w) :
    encodeR (topWithMode (fIgnored6 w) m) (fRs2 w) (fRs1 w) op (fRd w) opc = w := by
  rw [topWithMode_fields hm, encodeR_fields ho hf]

theorem wellFormed_encode_decodeImm (ho : fOpcode w = Config.opcodeImm) :
    (decodeImm w).wellFormed = true ∧ encode (decodeImm w) = w := by
  have hf := toBits_ofBits (fFunct3 w)
  unfold decodeImm
  generalize AluOp.ofBits (fFunct3 w) = op at hf ⊢
  cases op with
  | sll => exact ⟨rfl, encodeR_fields ho hf⟩
  | sr =>
    cases hmode : fMode w <;> exact ⟨rfl, encodeR_fields_topWithMode (by simp [hmode]) ho hf⟩
  | _ => exact ⟨rfl, encodeI_fields ho hf⟩

theorem wellFormed_encode_decodeReg (ho : fOpcode w = Config.opcodeReg) :
    (decodeReg w).wellFormed = true ∧ encode (decodeReg w) = w := by
  have hf := toBits_ofBits (fFunct3 w)
  unfold decodeReg
  generalize AluOp.ofBits (fFunct3 w) = op at hf ⊢
  cases op with
  | add | sr =>
    cases hmode : fMode w <;> exact ⟨rfl, encodeR_fields_topWithMode (by simp [hmode]) ho hf⟩
  | _ => exact ⟨rfl, encodeR_fields ho hf⟩

end Decoded

/-- Settles O33: by the word's opcode; a word with neither ALU opcode is kept whole. -/
theorem encodeOfDecode : Obligations.EncodeOfDecode := by
  intro w
  by_cases himm : fOpcode w = Config.opcodeImm
  · rw [decode_of_opcodeImm himm]
    exact wellFormed_encode_decodeImm himm
  · by_cases hreg : fOpcode w = Config.opcodeReg
    · rw [decode_of_opcodeReg hreg]
      exact wellFormed_encode_decodeReg hreg
    · have hnon : isAluWord w = false := by simp [isAluWord_eq, himm, hreg]
      rw [decode_of_nonAlu hnon]
      exact ⟨by simp [Instr.wellFormed, hnon], rfl⟩

end Sys2Proof.Machine
end

section

namespace Sys2Proof.Machine

variable {n : Nat}

/-! ### The carry and borrow chains

The chains of Machine/Flags.lean are the library's carry chain; a borrow is the absence of a carry when the complement
is added with carry-in 1 (40_bitword.md R86, R87). -/

theorem carryInto_eq_carry (a b : BitVec n) : ∀ i, carryInto a b i = BitVec.carry i a b false
  | 0 => BitVec.carry_zero.symm
  | i + 1 => by
    have rule : ∀ x y c : Bool, ((x && y) || (c && (x ^^ y))) = Bool.atLeastTwo x y c := by decide
    rw [BitVec.carry_succ, ← carryInto_eq_carry a b i, carryInto, rule]

theorem borrowInto_eq_not_carry (a b : BitVec n) : ∀ i ≤ n, borrowInto a b i = !BitVec.carry i a (~~~b) true
  | 0, _ => by rw [BitVec.carry_zero]; rfl
  | i + 1, h => by
    have rule : ∀ x y c : Bool, ((!x && y) || (!(x ^^ y) && !c)) = !Bool.atLeastTwo x (!y) c := by decide
    have hnot : (~~~b).getLsbD i = !b.getLsbD i := by simp [show i < n from h]
    rw [BitVec.carry_succ, hnot, borrowInto, borrowInto_eq_not_carry a b i (by omega), rule]

/-- The borrow out of the subtractor is the unsigned order (40_bitword.md R97). -/
theorem borrowInto_width (a b : BitVec n) : borrowInto a b n = decide (a.toNat < b.toNat) := by
  rw [borrowInto_eq_not_carry a b n le_rfl, ← BitVec.ult_eq_not_carry, BitVec.ult_eq_decide]

/-! ### The adder and the subtractor -/

namespace Bits

theorem getLsbD_add {i : Nat} (h : i < n) (a b : BitVec n) :
    (add a b).getLsbD i = (a.getLsbD i ^^ b.getLsbD i ^^ carryInto a b i) := by
  rw [add_eq, BitVec.getLsbD_add h, carryInto_eq_carry, Bool.xor_assoc]

theorem sub_eq_add_not (a b : BitVec n) : sub a b = add a (add (not b) 1#n) := by
  rw [sub_eq, add_eq, add_eq, not_eq, BitVec.sub_eq_add_neg, BitVec.neg_eq_not_add]

theorem getLsbD_sub {i : Nat} (h : i < n) (a b : BitVec n) :
    (sub a b).getLsbD i = (a.getLsbD i ^^ b.getLsbD i ^^ borrowInto a b i) := by
  have hone : BitVec.setWidth n (BitVec.ofBool true) = 1#n := zext_ofBool n true
  have hbit := BitVec.getLsbD_add_add_bool h a (~~~b) true
  rw [hone, BitVec.add_assoc] at hbit
  rw [sub_eq_add_not, add_eq, add_eq, not_eq, borrowInto_eq_not_carry a b i h.le]
  simpa [h] using hbit

theorem toNat_sub (a b : BitVec n) : ((sub a b).toNat : Int) = ((a.toNat : Int) - b.toNat) % 2 ^ n := by
  have hle : b.toNat ≤ 2 ^ n := b.isLt.le
  rw [sub_eq, BitVec.toNat_sub']
  push_cast [Nat.cast_sub hle]
  rw [← Int.add_emod_right (_ - _)]
  congr 1
  ring

end Bits

/-- Settles O39: the chain is the library's carry; the integer meanings are the library's for addition. -/
theorem adderRipplesCarry : Obligations.AdderRipplesCarry := fun _ a b =>
  ⟨fun _ h => Bits.getLsbD_add h a b, BitVec.toNat_add a b, BitVec.toInt_add a b⟩

/-- Settles O40: subtracting is adding the complement with carry-in 1, whose carries are the inverted borrows. -/
theorem subtractorRipplesBorrow : Obligations.SubtractorRipplesBorrow := fun _ a b =>
  ⟨fun _ h => Bits.getLsbD_sub h a b, Bits.toNat_sub a b, Bits.sub_eq_add_not a b⟩

end Sys2Proof.Machine
end

section

namespace Sys2Proof.Machine

variable {n m : Nat}

/-! ### The shifters -/

namespace Bits

section Shifters
variable (a : BitVec n) (s : BitVec m)

theorem getLsbD_shl {i : Nat} (h : i < n) :
    (shl a s).getLsbD i = if s.toNat ≤ i then a.getLsbD (i - s.toNat) else false := by
  rw [shl_eq, BitVec.getLsbD_shiftLeft]
  by_cases hs : s.toNat ≤ i
  · simp [h, hs, show ¬ i < s.toNat by omega]
  · simp [hs, show i < s.toNat by omega]

theorem getLsbD_shr (i : Nat) :
    (shr a s).getLsbD i = if i + s.toNat < n then a.getLsbD (i + s.toNat) else false := by
  rw [shr_eq, BitVec.getLsbD_ushiftRight, Nat.add_comm]
  split
  · rfl
  · exact BitVec.getLsbD_of_ge _ _ (by omega)

theorem getLsbD_sra {i : Nat} (h : i < n) :
    (sra a s).getLsbD i = if i + s.toNat < n then a.getLsbD (i + s.toNat) else a.getLsbD (n - 1) := by
  rw [sra_eq, BitVec.getLsbD_sshiftRight, BitVec.msb_eq_getLsbD_last, decide_eq_false h.not_ge, Nat.add_comm]
  rfl

theorem toNat_shl : (shl a s).toNat = a.toNat * 2 ^ s.toNat % 2 ^ n := by
  rw [shl_eq, BitVec.toNat_shiftLeft, Nat.shiftLeft_eq]

theorem toNat_shr : (shr a s).toNat = a.toNat / 2 ^ s.toNat := by
  rw [shr_eq, BitVec.toNat_ushiftRight, Nat.shiftRight_eq_div_pow]

/-- The divisor is positive, so that the floor is the shift's own rounding (40_bitword.md R91). -/
theorem toInt_sra : (sra a s).toInt = Int.fdiv a.toInt (2 ^ s.toNat) := by
  rw [sra_eq, BitVec.toInt_sshiftRight, Int.shiftRight_eq_div_pow, Int.fdiv_eq_ediv_of_nonneg _ (by positivity)]
  norm_cast

end Shifters

end Bits

/-- Settles O41: the gates are the library's bit by bit; the shifters by the rules above. -/
theorem gatesAndShiftersBitwise : Obligations.GatesAndShiftersBitwise := fun _ _ a b s i h =>
  ⟨BitVec.getLsbD_and, BitVec.getLsbD_or, BitVec.getLsbD_xor, by simp [Bits.not_eq, h], Bits.getLsbD_shl a s h,
    Bits.getLsbD_shr a s i, Bits.getLsbD_sra a s h, Bits.toNat_shl a s, Bits.toNat_shr a s, Bits.toInt_sra a s⟩

end Sys2Proof.Machine
end

section

namespace Sys2Proof.Machine

variable {n : Nat}

/-! ### The comparators -/

namespace Bits

theorem ltu_eq (a b : BitVec n) : ltu a b = if a.toNat < b.toNat then 1#n else 0#n := by
  simp [ltu, zext_ofBool]

theorem ltu_eq_one_iff (h : 1 ≤ n) (a b : BitVec n) : ltu a b = 1#n ↔ a.toNat < b.toNat := by
  have hne : 0#n ≠ 1#n := by simp [BitVec.toNat_eq]; omega
  rw [ltu_eq]
  split <;> simp [*]

/-- The spec's case on the sign bits (40_bitword.md R93). -/
theorem lts_eq_signCase (a b : BitVec n) :
    lts a b =
      if (if a.getLsbD (n - 1) ≠ b.getLsbD (n - 1) then a.getLsbD (n - 1) = true else a.toNat < b.toNat) then 1#n
        else 0#n := by
  simp only [lts, zext_ofBool, BitVec.msb_eq_getLsbD_last]
  by_cases h : a.getLsbD (n - 1) = b.getLsbD (n - 1) <;> simp [h]

theorem slt_eq_signCase (a b : BitVec n) :
    a.slt b = if a.msb != b.msb then a.msb else decide (a.toNat < b.toNat) := by
  by_cases h : a.msb = b.msb
  · simp [h, BitVec.slt_eq_ult_of_msb_eq h, BitVec.ult_eq_decide]
  · simp [BitVec.slt_eq_not_ult_of_msb_neq h, BitVec.ult_eq_msb_of_msb_neq h, Bool.eq_not_of_ne h]

theorem lts_eq (a b : BitVec n) : lts a b = if a.toInt < b.toInt then 1#n else 0#n := by
  rw [lts, ← slt_eq_signCase, zext_ofBool]
  simp only [BitVec.slt_iff_toInt_lt]

/-- No carry enters the top bit, and the one out of it is dropped: flipping the sign bit is adding its weight. -/
theorem xor_signBit_eq_add (k : Nat) (a : BitVec (k + 1)) :
    xor a (BitVec.twoPow (k + 1) k) = add a (BitVec.twoPow (k + 1) k) := by
  apply BitVec.eq_of_getLsbD_eq
  intro i h
  have hlow : 2 ^ k % 2 ^ i = 0 := Nat.mod_eq_zero_of_dvd (Nat.pow_dvd_pow 2 (by omega))
  have hcarry : carryInto a (BitVec.twoPow (k + 1) k) i = false := by
    have hbound : a.toNat % 2 ^ i < 2 ^ i := Nat.mod_lt _ (by positivity)
    rw [carryInto_eq_carry, BitVec.carry, BitVec.toNat_twoPow_of_lt (by omega), hlow]
    simpa using hbound
  rw [getLsbD_add h, hcarry, Bool.xor_false, xor_eq, BitVec.getLsbD_xor]

theorem toNat_xor_signBit (k : Nat) (a : BitVec (k + 1)) :
    ((xor a (BitVec.twoPow (k + 1) k)).toNat : Int) = a.toInt + (2 ^ k : Nat) := by
  have hlt := a.isLt
  rw [xor_signBit_eq_add, add_eq, BitVec.toNat_add, BitVec.toNat_twoPow_of_lt (by omega), BitVec.toInt]
  rw [Nat.pow_succ] at *
  split
  · rw [Nat.mod_eq_of_lt (by omega)]
    omega
  · rw [Nat.mod_eq_sub_mod (by omega), Nat.mod_eq_of_lt (by omega)]
    omega

end Bits

/-- Settles O42: the case on the sign bits is the order of the two's-complement values. -/
theorem comparatorsOrderIntegers : Obligations.ComparatorsOrderIntegers := fun _ a b =>
  ⟨Bits.ltu_eq a b, Bits.lts_eq_signCase a b, Bits.lts_eq a b⟩

/-- Settles O43: flipping the sign bits adds 2^(n-1) to both signed values, which keeps their order. -/
theorem comparatorRelation : Obligations.ComparatorRelation := by
  intro n a b hn
  constructor
  · obtain ⟨k, rfl⟩ : ∃ k, n = k + 1 := ⟨n - 1, by omega⟩
    rw [Bits.lts_eq, Bits.ltu_eq, Nat.add_sub_cancel]
    simp only [← Int.ofNat_lt, Bits.toNat_xor_signBit, Int.add_lt_add_iff_right]
  · rw [Bits.ltu_eq_one_iff hn, borrowInto_width, decide_eq_true_eq]

end Sys2Proof.Machine
end

section

namespace Sys2Proof.Machine

variable {n m : Nat}

/-! ### Extensions and the weights of the bits -/

namespace Bits

theorem getLsbD_sext {i : Nat} (h : i < m) (v : BitVec n) :
    (sext m v).getLsbD i = if i < n then v.getLsbD i else v.getLsbD (n - 1) := by
  rw [sext_eq, BitVec.getLsbD_signExtend, BitVec.msb_eq_getLsbD_last, decide_eq_true h, Bool.true_and]

theorem getLsbD_zext {i : Nat} (h : i < m) (v : BitVec n) :
    (zext m v).getLsbD i = if i < n then v.getLsbD i else false := by
  split
  · simp [zext_eq, h]
  · simp [zext_eq, BitVec.getLsbD_of_ge v i (by omega)]

theorem sum_lowBits (a : BitVec n) (k : Nat) :
    ∑ i ∈ Finset.range k, (a.getLsbD i).toNat * 2 ^ i = a.toNat % 2 ^ k := by
  induction k with
  | zero => simp [Nat.mod_one]
  | succ k ih => rw [Finset.sum_range_succ, ih, BitVec.getLsbD, Nat.toNat_testBit, Nat.mod_pow_succ, Nat.mul_comm]

theorem toNat_eq_sum_bits (a : BitVec n) : a.toNat = ∑ i ∈ Finset.range n, (a.getLsbD i).toNat * 2 ^ i := by
  rw [sum_lowBits, Nat.mod_eq_of_lt a.isLt]

theorem toInt_eq_sub_signBit (a : BitVec n) : a.toInt = (a.toNat : Int) - 2 ^ n * (a.getLsbD (n - 1)).toNat := by
  rw [BitVec.toInt_eq_msb_cond, BitVec.msb_eq_getLsbD_last]
  cases a.getLsbD (n - 1) <;> simp

end Bits

/-! ### Words that carry their width -/

namespace BitWord

section Extension
variable {a : BitWord}

theorem signExtend_of_lt (h : m < a.width) : a.signExtend m = .fault .extendNarrower := if_pos h
theorem zeroExtend_of_lt (h : m < a.width) : a.zeroExtend m = .fault .extendNarrower := if_pos h

theorem signExtend_of_le (h : a.width ≤ m) : a.signExtend m = .next ⟨m, Bits.sext m a.bits⟩ := if_neg h.not_gt
theorem zeroExtend_of_le (h : a.width ≤ m) : a.zeroExtend m = .next ⟨m, Bits.zext m a.bits⟩ := if_neg h.not_gt

end Extension

theorem equal_mismatch {a b : BitWord} (h : a.width ≠ b.width) : a.equal b = .fault .widthMismatch :=
  dif_neg fun e => h e.symm

theorem equal_sameWidth (x y : BitVec n) :
    equal ⟨n, x⟩ ⟨n, y⟩ = .next ⟨1, if ∀ i < n, x.getLsbD i = y.getLsbD i then 1#1 else 0#1⟩ := by
  have hone : equal ⟨n, x⟩ ⟨n, y⟩ = .next ⟨1, BitVec.ofBool (Bits.eq x y)⟩ := dif_pos rfl
  have hbits : (∀ i < n, x.getLsbD i = y.getLsbD i) ↔ Bits.eq x y = true := by
    rw [Bits.eq_iff]
    exact ⟨BitVec.eq_of_getLsbD_eq, fun h i _ => h ▸ rfl⟩
  rw [hone]
  cases h : Bits.eq x y <;> simp [hbits, h]

end BitWord

/-- Settles O44: a narrower target faults; otherwise the result is the typed extension. -/
theorem extensionKeepsValueOrFaults : Obligations.ExtensionKeepsValueOrFaults := by
  intro a m _
  refine ⟨fun h => ⟨BitWord.signExtend_of_lt h, BitWord.zeroExtend_of_lt h⟩, fun h => ⟨?_, ?_⟩⟩
  · exact ⟨_, BitWord.signExtend_of_le h, rfl, BitVec.toInt_signExtend_of_le h,
      fun _ hi => Bits.getLsbD_sext hi a.bits⟩
  · exact ⟨_, BitWord.zeroExtend_of_le h, rfl, BitVec.toNat_setWidth_of_le h,
      fun _ hi => Bits.getLsbD_zext hi a.bits⟩

/-- Settles O46: seven of the primitives are `binary`; the equality comparator has its own rules. -/
theorem widthMismatchFaults : Obligations.WidthMismatchFaults := by
  constructor
  · intro a b h
    refine ⟨?_, ?_, ?_, ?_, ?_, ?_, ?_, BitWord.equal_mismatch h⟩ <;> exact BitWord.binary_mismatch _ h
  · intro n x y
    refine ⟨?_, ?_, ?_, ?_, ?_, ?_, ?_, BitWord.equal_sameWidth x y⟩ <;> exact BitWord.binary_sameWidth _ x y

/-- Settles O53: the untyped operations are the typed ones by definition; the conversions weigh the bits. -/
theorem shiftersAndConversionsOfWords : Obligations.ShiftersAndConversionsOfWords := fun a _ =>
  ⟨rfl, rfl, rfl, rfl, Bits.toNat_eq_sum_bits a.bits, Bits.toInt_eq_sub_signBit a.bits⟩

end Sys2Proof.Machine
end

section

namespace Sys2Proof.Machine

/-! ### The latch and the pending inputs across a step -/

theorem advanceInput_inputs (s : State) : (advanceInput s).inputs = s.inputs.tail := by
  unfold advanceInput
  split <;> simp [*]

theorem currentInput_mem {s : State} (h : s.inputs ≠ []) : currentInput s ∈ s.inputs := by
  obtain ⟨p, ps, hps⟩ := List.exists_cons_of_ne_nil h
  simp [currentInput_cons hps, hps]

/-- What every step does to the latch (41_decoder.md R111) and to the driver's sequence (47_step.md R226). -/
theorem step_latch_inputs (s : State) :
    ∃ t, step s = .next t ∧ t.latch = latchNext (currentInput s) s.latch ∧ t.inputs = s.inputs.tail := by
  cases hrst : (currentInput s).rst with
  | true => exact ⟨_, step_of_reset hrst, by simp [latchNext, hrst], by simp [advanceInput_inputs]⟩
  | false =>
    cases hen : (currentInput s).en with
    | true => exact ⟨_, step_eq_commit ⟨hen, hrst⟩, by simp [latchNext, hrst, hen], by simp [advanceInput_inputs]⟩
    | false => exact ⟨_, step_of_hold hrst hen, by simp [latchNext, hrst, hen], advanceInput_inputs s⟩

/-- Settles O18: the latch's rule is the datapath's `latchNext`, in each of the step's three cases. -/
theorem latchUpdate : Obligations.LatchUpdate := by
  intro s
  obtain ⟨t, hstep, hlatch, -⟩ := step_latch_inputs s
  exact ⟨t, hstep, hlatch⟩

/-! ### Canonical streams -/

theorem canonicalWord_zero : canonicalWord 0#32 = true := by decide

/-- The latch takes no word but zero, the presented one and its own (41_decoder.md R111). -/
theorem canonicalWord_latchNext {p : StepInput} {w : Word} (hp : canonicalWord p.instrIn = true)
    (hw : canonicalWord w = true) : canonicalWord (latchNext p w) = true := by
  unfold latchNext
  split
  · exact canonicalWord_zero
  · split
    · exact hp
    · exact hw

/-- Settles O49: the word that may enter the latch is a supplied one, and the inputs left are among those supplied. -/
theorem canonicalStreamKept : Obligations.CanonicalStreamKept := by
  rintro s t ⟨hlatch, hinputs⟩ hne hstep
  obtain ⟨t', hstep', hlatch', hinputs'⟩ := step_latch_inputs s
  obtain rfl : t' = t := by simpa [hstep'] using hstep
  constructor
  · rw [hlatch']
    exact canonicalWord_latchNext (hinputs _ (currentInput_mem hne)) hlatch
  · rw [hinputs']
    exact fun p hp => hinputs p (List.mem_of_mem_tail hp)

/-! ### The decoder's outputs -/

theorem Bits.eq_eq_decide {n : Nat} (a b : BitVec n) : Bits.eq a b = decide (a = b) := rfl

theorem decodeControl_low (w : Word) : decodeControl w false = .off := rfl

/-- With enable high the outputs are the fields of 30_encoding.md R51 and the opcode's class (41_decoder.md R114 to
R118). -/
theorem decodeControl_high (w : Word) :
    decodeControl w true =
      { aluEnable := isAluWord w
        aluImmediateMode := Bits.eq (fOpcode w) Config.opcodeImm
        opcode := fOpcode w
        rs1Index := fRs1 w
        rs2Index := fRs2 w
        rdIndex := fRd w
        imm12 := fImm12 w
        func3 := fFunct3 w } := rfl

theorem isAluWord_eq_decide (w : Word) :
    isAluWord w = decide (fOpcode w = Config.opcodeImm ∨ fOpcode w = Config.opcodeReg) := by
  rw [Bool.decide_or]
  rfl

/-- Settles O37: enable gates the whole record; the ALU enable is the class of the two ALU opcodes. -/
theorem decoderOutputs : Obligations.DecoderOutputs := by
  intro w
  refine ⟨decodeControl_low w, ?_⟩
  rw [decodeControl_high, isAluWord_eq_decide, Bits.eq_eq_decide]
  rfl

end Sys2Proof.Machine
end

section

namespace Sys2Proof.Machine

/-! ### The ALU output -/

/-- With enable high the ALU is wired to the latched word's fields (42_alu.md R130). -/
theorem aluOfControl_high (s : State) :
    aluOfControl (decodeControl s.latch true) s.cells =
      alu (readReg s (fRs1 s.latch)) (readReg s (fRs2 s.latch)) (fImm12 s.latch) (fOpcode s.latch = Config.opcodeImm)
        (fFunct3 s.latch) := rfl

theorem aluResultOutput_low (reading : NonAluResult) (s : State) : aluResultOutput reading false s = 0#32 := rfl

theorem aluResultOutput_high (reading : NonAluResult) (s : State) :
    aluResultOutput reading true s =
      if isAluWord s.latch ∨ reading = .ungated then aluOfControl (decodeControl s.latch true) s.cells
      else 0#32 := by
  have hen : (decodeControl s.latch true).aluEnable = isAluWord s.latch := by rw [decodeControl_high]
  cases reading <;> simp [aluResultOutput, hen]

/-- Settles O38: enable low gives zero; with enable high the output is the ALU's for an ALU word or an ungated
reading. -/
theorem aluResultOutputValue : Obligations.AluResultOutputValue := by
  intro reading s
  refine ⟨aluResultOutput_low reading s, fun halu => ?_, fun hnon => ⟨?_, ?_⟩⟩
  · rw [aluResultOutput_high, if_pos (.inl halu)]
    exact aluOfControl_high s
  · rw [aluResultOutput_high, if_pos (.inr rfl)]
    exact aluOfControl_high s
  · rw [aluResultOutput_high, if_neg (by simp [hnon])]

end Sys2Proof.Machine
end

section

namespace Sys2Proof.Machine

/-! ### Decoding by a row's match and mask

A word that a row selects is the assembled word of the row's instruction over the word's own fields, so it decodes to
that instruction by the round trip `decodeOfEncode` (30_encoding.md R60). What the row's match bits hold in the masked
fields is a closed fact, decided where a row is named. -/

theorem decode_eq_of_encode_eq {i : Instr} {w : Word} (hwf : i.wellFormed = true) (h : encode i = w) : decode w = i :=
  h ▸ decodeOfEncode i hwf

section SelectedWord
variable {w m : Word} {op : AluOp} {opc : Opcode}

theorem encodeI_of_plainMask (h : w &&& 0x0000707F#32 = m) (ho : fOpcode m = Config.opcodeImm := by decide)
    (hf : op.toBits = fFunct3 m := by decide) : encodeI (fImm12 w) (fRs1 w) op (fRd w) = w := by
  obtain ⟨hopcode, hfunct⟩ := fields_of_plainMask h
  exact encodeI_fields (hopcode.trans ho) (hf.trans hfunct.symm)

theorem encodeR_of_plainMask (h : w &&& 0x0000707F#32 = m) (ho : fOpcode m = opc := by decide)
    (hf : op.toBits = fFunct3 m := by decide) :
    encodeR (fIgnored7 w) (fRs2 w) (fRs1 w) op (fRd w) opc = w := by
  obtain ⟨hopcode, hfunct⟩ := fields_of_plainMask h
  exact encodeR_fields (hopcode.trans ho) (hf.trans hfunct.symm)

theorem encodeR_of_modeMask {b : BitVec 1} (h : w &&& 0x4000707F#32 = m) (ho : fOpcode m = opc := by decide)
    (hf : op.toBits = fFunct3 m := by decide) (hb : b = BitVec.ofBool (fMode m) := by decide) :
    encodeR (topWithMode (fIgnored6 w) b) (fRs2 w) (fRs1 w) op (fRd w) opc = w := by
  obtain ⟨hopcode, hfunct, hmode⟩ := fields_of_modeMask h
  exact encodeR_fields_topWithMode (by rw [hb, hmode]) (hopcode.trans ho) (hf.trans hfunct.symm)

end SelectedWord

/-! ### An instruction commits its value -/

section Commits
variable (i : Instr) (s : State)

/-- An instruction completes, committing the value it computes and nothing else (R150, R170). -/
theorem exec_commits {v : Word} (h : resultOf i s.cells = v) :
    ∃ t, exec i s = .next t ∧ CommitsOnly (destination i) v s t :=
  ⟨_, exec_eq_commit i s, h ▸ commitsOnly_writeReg ..⟩

/-- `exec_commits` where the value is known by a property. -/
theorem exec_commits_value {p : Word → Prop} (h : p (resultOf i s.cells)) :
    ∃ v t, exec i s = .next t ∧ CommitsOnly (destination i) v s t ∧ p v :=
  ⟨_, _, exec_eq_commit i s, commitsOnly_writeReg .., h⟩

end Commits

/-! ### The immediate operand and the register shift amount -/

section Operand
variable (imm : Imm12)

theorem toInt_immOperand : (immOperand imm).toInt = imm.toInt := BitVec.toInt_signExtend_of_le (by decide)

/-- As a pattern, the immediate stands for its value modulo 2^32 (30_encoding.md R55). -/
theorem toNat_immOperand : ((immOperand imm).toNat : Int) = imm.toInt % 2 ^ 32 := by
  have hofInt : (immOperand imm).toNat = (imm.toInt % 2 ^ 32).toNat := BitVec.toNat_ofInt imm.toInt
  rw [hofInt, Int.toNat_of_nonneg (Int.emod_nonneg _ (by decide))]

/-- Bits 11 to 31 are all imm[11]. -/
theorem getLsbD_immOperand {k : Nat} (h : k < 32) : (immOperand imm).getLsbD k = imm.getLsbD (min k 11) := by
  rw [immOperand, Bits.getLsbD_sext h]
  split
  · rw [show min k 11 = k by omega]
  · rw [show min k 11 = 11 by omega]

theorem toNat_add_immOperand (x : Word) :
    ((Bits.add x (immOperand imm)).toNat : Int) = (x.toNat + imm.toInt) % 2 ^ 32 := by
  rw [Bits.add_eq, BitVec.toNat_add]
  push_cast
  rw [toNat_immOperand]
  exact Int.add_emod_emod ..

theorem lts_immOperand (x : Word) :
    Bits.lts x (immOperand imm) = if x.toInt < imm.toInt then 1#32 else 0#32 := by
  rw [Bits.lts_eq, toInt_immOperand]

theorem ltu_immOperand (x : Word) :
    Bits.ltu x (immOperand imm) = if (x.toNat : Int) < imm.toInt % 2 ^ 32 then 1#32 else 0#32 := by
  simp only [Bits.ltu_eq, ← toNat_immOperand, Int.ofNat_lt]

end Operand

section ShiftByRegister
variable (x y : Word)

theorem toNat_shl_regShiftAmount :
    (Bits.shl x (regShiftAmount y)).toNat = x.toNat * 2 ^ (y.toNat % 32) % 2 ^ 32 := by
  rw [Bits.toNat_shl, regShiftAmount_toNat]

theorem toNat_shr_regShiftAmount : (Bits.shr x (regShiftAmount y)).toNat = x.toNat / 2 ^ (y.toNat % 32) := by
  rw [Bits.toNat_shr, regShiftAmount_toNat]

theorem toInt_sra_regShiftAmount :
    (Bits.sra x (regShiftAmount y)).toInt = Int.fdiv x.toInt (2 ^ (y.toNat % 32)) := by
  rw [Bits.toInt_sra, regShiftAmount_toNat]

end ShiftByRegister

end Sys2Proof.Machine
end

section

namespace Sys2Proof.Machine

/-! ### The register-immediate instructions, with their register forms -/

/-- Settles O1: the adder on the sign-extended immediate. -/
theorem addImmediateResult : Obligations.AddImmediateResult :=
  ⟨fun _ h => decode_eq_of_encode_eq rfl (encodeI_of_plainMask h),
    fun rd rs1 imm s => exec_commits_value (.addi rd rs1 imm) s (toNat_add_immOperand imm _)⟩

/-- Settles O4: the signed comparator orders the two's-complement values. -/
theorem setLessThanSignedResult : Obligations.SetLessThanSignedResult :=
  ⟨fun _ h => decode_eq_of_encode_eq rfl (encodeI_of_plainMask h),
    fun rd rs1 imm s => exec_commits (.slti rd rs1 imm) s (lts_immOperand imm _),
    fun _ h => decode_eq_of_encode_eq rfl (encodeR_of_plainMask h),
    fun rd rs1 rs2 g s => exec_commits (.slt rd rs1 rs2 g) s (Bits.lts_eq _ _)⟩

/-- Settles O5: the unsigned comparator orders the patterns, the immediate's being its value modulo 2^32. -/
theorem setLessThanUnsignedResult : Obligations.SetLessThanUnsignedResult :=
  ⟨fun _ h => decode_eq_of_encode_eq rfl (encodeI_of_plainMask h),
    fun rd rs1 imm s => exec_commits (.sltiu rd rs1 imm) s (ltu_immOperand imm _),
    fun _ h => decode_eq_of_encode_eq rfl (encodeR_of_plainMask h),
    fun rd rs1 rs2 g s => exec_commits (.sltu rd rs1 rs2 g) s (Bits.ltu_eq _ _)⟩

/-- Settles O6: the gate is bitwise, and so is the sign extension. -/
theorem exclusiveOrResult : Obligations.ExclusiveOrResult :=
  ⟨fun _ h => decode_eq_of_encode_eq rfl (encodeI_of_plainMask h),
    fun rd rs1 imm s => exec_commits_value (.xori rd rs1 imm) s fun _ hk =>
      getLsbD_immOperand imm hk ▸ BitVec.getLsbD_xor,
    fun _ h => decode_eq_of_encode_eq rfl (encodeR_of_plainMask h),
    fun rd rs1 rs2 g s => exec_commits_value (.xor rd rs1 rs2 g) s fun _ _ => BitVec.getLsbD_xor⟩

/-- Settles O7: the gate is bitwise, and so is the sign extension. -/
theorem inclusiveOrResult : Obligations.InclusiveOrResult :=
  ⟨fun _ h => decode_eq_of_encode_eq rfl (encodeI_of_plainMask h),
    fun rd rs1 imm s => exec_commits_value (.ori rd rs1 imm) s fun _ hk =>
      getLsbD_immOperand imm hk ▸ BitVec.getLsbD_or,
    fun _ h => decode_eq_of_encode_eq rfl (encodeR_of_plainMask h),
    fun rd rs1 rs2 g s => exec_commits_value (.or rd rs1 rs2 g) s fun _ _ => BitVec.getLsbD_or⟩

/-- Settles O8: the gate is bitwise, and so is the sign extension. -/
theorem bitwiseAndResult : Obligations.BitwiseAndResult :=
  ⟨fun _ h => decode_eq_of_encode_eq rfl (encodeI_of_plainMask h),
    fun rd rs1 imm s => exec_commits_value (.andi rd rs1 imm) s fun _ hk =>
      getLsbD_immOperand imm hk ▸ BitVec.getLsbD_and,
    fun _ h => decode_eq_of_encode_eq rfl (encodeR_of_plainMask h),
    fun rd rs1 rs2 g s => exec_commits_value (.and rd rs1 rs2 g) s fun _ _ => BitVec.getLsbD_and⟩

/-- Settles O9: both forms are the left shifter, whose value is a product; the register form's amount is modulo 32. -/
theorem shiftLeftResult : Obligations.ShiftLeftResult :=
  ⟨fun _ h => decode_eq_of_encode_eq rfl (encodeR_of_plainMask h),
    fun rd rs1 shamt g s => exec_commits_value (.slli rd rs1 shamt g) s (Bits.toNat_shl _ shamt),
    fun _ h => decode_eq_of_encode_eq rfl (encodeR_of_plainMask h),
    fun rd rs1 rs2 g s => exec_commits_value (.sll rd rs1 rs2 g) s (toNat_shl_regShiftAmount _ _)⟩

/-- Settles O10: both forms are the logical right shifter, whose value is the unsigned quotient. -/
theorem shiftRightLogicalResult : Obligations.ShiftRightLogicalResult :=
  ⟨fun _ h => decode_eq_of_encode_eq rfl (encodeR_of_modeMask h),
    fun rd rs1 shamt g s => exec_commits_value (.srli rd rs1 shamt g) s (Bits.toNat_shr _ shamt),
    fun _ h => decode_eq_of_encode_eq rfl (encodeR_of_modeMask h),
    fun rd rs1 rs2 g s => exec_commits_value (.srl rd rs1 rs2 g) s (toNat_shr_regShiftAmount _ _)⟩

/-- Settles O11: both forms are the arithmetic right shifter, whose value is the floor of the signed quotient. -/
theorem shiftRightArithmeticResult : Obligations.ShiftRightArithmeticResult :=
  ⟨fun _ h => decode_eq_of_encode_eq rfl (encodeR_of_modeMask h),
    fun rd rs1 shamt g s => exec_commits_value (.srai rd rs1 shamt g) s (Bits.toInt_sra _ shamt),
    fun _ h => decode_eq_of_encode_eq rfl (encodeR_of_modeMask h),
    fun rd rs1 rs2 g s => exec_commits_value (.sra rd rs1 rs2 g) s (toInt_sra_regShiftAmount _ _)⟩

/-! ### The family's frame -/

/-- In immediate mode the ALU computes the decoded instruction's value, whatever stands on the second port (R150). -/
theorem alu_immediateMode_eq_resultOf (w : Word) (cells : Vector Word 31) (y : Word) :
    alu (selectRegister cells (fRs1 w).toNat) y (fImm12 w) true (fFunct3 w) = resultOf (decodeImm w) cells := by
  unfold alu decodeImm
  cases AluOp.ofBits (fFunct3 w) with
  | sll => simp only [shiftAmount_imm, fImm12_low, resultOf]
  | sr => cases hmode : fMode w <;> simp [modeBit_fImm12, hmode, shiftAmount_imm, fImm12_low, resultOf]
  | _ => rfl

/-- A reset step clears the latch and every register (70_reset_and_hazards.md R260). -/
theorem step_reset_clears {s : State} (h : (currentInput s).rst = true) :
    ∃ t, step s = .next t ∧ t.latch = 0#32 ∧ ∀ i, readReg t i = 0#32 :=
  ⟨_, step_of_reset h, rfl, readReg_resetEdge _⟩

/-- An executing step loads the latch and commits the latched instruction's value to its destination alone. -/
theorem step_executes_commits {s : State} (h : Executes s) :
    ∃ t, step s = .next t ∧ t.latch = (currentInput s).instrIn ∧
      ∀ i, readReg t i =
        if i = destination (decode s.latch) ∧ destination (decode s.latch) ≠ 0#5 then
          resultOf (decode s.latch) s.cells
        else readReg s i :=
  ⟨_, step_eq_commit h, rfl, fun i => by rw [readReg_loadLatch, readReg_writeReg, readReg_advanceInput]⟩

/-- Settles O14: the latched word's destination is its rd field and its value the ALU's, for any second operand. -/
theorem immediateFamilyFrame : Obligations.ImmediateFamilyFrame := by
  intro s (hopc : fOpcode s.latch = Config.opcodeImm) hen
  refine ⟨?_, ?_, fun hrst => ?_, step_reset_clears⟩
  · simp [decodeControl_high, isAluWord_eq, hopc]
  · simp [decodeControl_high, Bits.eq_iff, hopc]
  · have halu := alu_immediateMode_eq_resultOf s.latch s.cells
    obtain ⟨t, hstep, hlatch, hregs⟩ := step_executes_commits ⟨hen, hrst⟩
    rw [decode_of_opcodeImm hopc, destination_decodeImm, ← halu (readReg s (fRs2 s.latch))] at hregs
    exact ⟨t, hstep, hlatch, hregs, fun y => (halu y).trans (halu _).symm⟩

end Sys2Proof.Machine
end

section

namespace Sys2Proof.Machine

/-! ### ADD and SUB -/

/-- Settles O2: the adder's sum, modulo 2^32. -/
theorem addRegisterResult : Obligations.AddRegisterResult :=
  ⟨fun _ h => decode_eq_of_encode_eq rfl (encodeR_of_modeMask h),
    fun rd rs1 rs2 g s => exec_commits_value (.add rd rs1 rs2 g) s (BitVec.toNat_add _ _)⟩

/-- Settles O3: the subtractor's difference, modulo 2^32. -/
theorem subtractResult : Obligations.SubtractResult :=
  ⟨fun _ h => decode_eq_of_encode_eq rfl (encodeR_of_modeMask h),
    fun rd rs1 rs2 g s => exec_commits_value (.sub rd rs1 rs2 g) s (Bits.toNat_sub _ _)⟩

/-! ### The register family's frame -/

/-- In register mode the ALU computes the decoded instruction's value on any immediate that holds the word's mode bit
(R170): ADD/SUB and the right shifts read that bit, and no operation reads another. -/
theorem alu_registerMode_eq_resultOf (w : Word) (cells : Vector Word 31) {m : Imm12} (hm : modeBit m = fMode w) :
    alu (selectRegister cells (fRs1 w).toNat) (selectRegister cells (fRs2 w).toNat) m false (fFunct3 w) =
      resultOf (decodeReg w) cells := by
  unfold alu decodeReg
  rw [hm]
  cases AluOp.ofBits (fFunct3 w) with
  | add | sr => cases fMode w <;> rfl
  | _ => rfl

/-- Settles O15: the latched word's destination is its rd field and its value the ALU's, for any immediate with the
word's mode bit. -/
theorem registerFamilyFrame : Obligations.RegisterFamilyFrame := by
  intro s (hopc : fOpcode s.latch = Config.opcodeReg) hen
  refine ⟨?_, ?_, fun hrst => ?_, step_reset_clears⟩
  · simp [decodeControl_high, isAluWord_eq, hopc]
  · rw [decodeControl_high, hopc]
    rfl
  · have hword := alu_registerMode_eq_resultOf s.latch s.cells (modeBit_fImm12 s.latch)
    obtain ⟨t, hstep, hlatch, hregs⟩ := step_executes_commits ⟨hen, hrst⟩
    rw [decode_of_opcodeReg hopc, destination_decodeReg, ← hword] at hregs
    exact ⟨t, hstep, hlatch, hregs, fun m hm => (alu_registerMode_eq_resultOf _ _ hm).trans hword.symm⟩

end Sys2Proof.Machine
end

section

namespace Sys2Proof.Machine

/-! ### A step with a non-ALU word latched -/

/-- With a non-ALU word latched no register changes at the step's edge, unless reset clears it (45_non_alu.md R190):
an executing step commits to x0, which has no write-enable line. -/
theorem readReg_step_of_nonAlu {s t : State} (h : isAluWord s.latch = false) (hstep : step s = .next t) (i : RegIndex) :
    readReg t i = if (currentInput s).rst then 0#32 else readReg s i := by
  cases hrst : (currentInput s).rst with
  | true =>
    obtain rfl : resetEdge (advanceInput s) = t := by simpa [step_of_reset hrst] using hstep
    exact readReg_resetEdge _ i
  | false =>
    cases hen : (currentInput s).en with
    | false =>
      obtain rfl : advanceInput s = t := by simpa [step_of_hold hrst hen] using hstep
      exact readReg_advanceInput s i
    | true =>
      have hx0 : destination (decode s.latch) = 0#5 := by rw [decode_of_nonAlu h]; rfl
      rw [step_eq_commit ⟨hen, hrst⟩, hx0, writeReg_x0] at hstep
      cases hstep
      exact readReg_advanceInput s i

/-- Settles O12: a word outside the two ALU opcodes commits to no cell; the latch follows `latchNext` as for every
word, and the output is the general rule's (R139) with the immediate mode off. -/
theorem nonAluWordIsNoOp : Obligations.NonAluWordIsNoOp := by
  intro w (himm : fOpcode w ≠ Config.opcodeImm) (hreg : fOpcode w ≠ Config.opcodeReg)
  have hnon : isAluWord w = false := by simp [isAluWord_eq, himm, hreg]
  refine ⟨decode_of_nonAlu hnon, fun s => exec_eq_commit (.nopOther w) s, ?_⟩
  rintro s rfl hen
  obtain ⟨t, hstep, hlatch, -⟩ := step_latch_inputs s
  obtain ⟨-, -, hout⟩ := aluResultOutputValue .zero s
  obtain ⟨hungated, hzero⟩ := hout hnon
  refine ⟨⟨t, hstep, readReg_step_of_nonAlu hnon hstep, ?_⟩, hzero, ?_⟩
  · rw [hlatch, latchNext, hen, if_pos rfl]
  · have hmode : decide (s.latch.extractLsb' 0 7 = 0x13#7) = false := decide_eq_false himm
    rw [hungated, hmode]

/-- Settles O26: the latched zero word is outside the two ALU opcodes. -/
theorem firstStepAfterResetIsNoOp : Obligations.FirstStepAfterResetIsNoOp := by
  have hnon : isAluWord 0x00000000#32 = false := by decide
  refine ⟨decode_of_nonAlu hnon, fun s hrst => ?_⟩
  obtain ⟨t, hreset, hzero, -⟩ := step_reset_clears hrst
  refine ⟨t, hreset, hzero, fun hlow => ?_⟩
  obtain ⟨u, hstep, hlatch, -⟩ := step_latch_inputs t
  refine ⟨u, hstep, fun i => ?_, ?_⟩
  · rw [readReg_step_of_nonAlu (hzero ▸ hnon) hstep, hlow]
    rfl
  · rw [hlatch, latchNext, hlow, hzero]
    rfl

end Sys2Proof.Machine
end

section

namespace Sys2Proof.Machine

/-! ### The write-enable lines -/

/-- Line k stands for register k+1 (46_regfile_readmux.md R202). -/
theorem writeEnable_iff (d : DecodedControl) (k : Fin 31) :
    writeEnable d k = true ↔ d.aluEnable = true ∧ d.rdIndex.toNat = k.val + 1 := by
  have hk : (k.val + 1) % 2 ^ 5 = k.val + 1 := Nat.mod_eq_of_lt (by omega)
  rw [writeEnable, Bool.and_eq_true, Bits.eq_iff, BitVec.toNat_eq, BitVec.toNat_ofNat, hk]

/-- Settles O20: an asserted line's number is rd less one, so the index fixes the line, and x0 has none. -/
theorem singleWriteEnable : Obligations.SingleWriteEnable := by
  intro d
  simp only [writeEnable_iff]
  refine ⟨fun j k ⟨_, hj⟩ ⟨_, hk⟩ => Fin.ext (by omega), ?_, ?_⟩
  · rintro ⟨k, halu, hk⟩
    exact ⟨halu, fun hx0 => by simp [hx0] at hk⟩
  · rintro ⟨halu, hne⟩
    have hpos : d.rdIndex.toNat ≠ 0 := fun h => hne (BitVec.eq_of_toNat_eq h)
    have hlt : d.rdIndex.toNat < 32 := d.rdIndex.isLt
    exact ⟨⟨d.rdIndex.toNat - 1, by omega⟩, halu, by simp only; omega⟩

/-! ### The register cells in every step -/

/-- A register other than x0 is the one an instruction writes exactly when its write-enable line is asserted. -/
theorem committed_iff_targets {w : Word} {r : RegIndex} (hr : r ≠ 0#5) :
    r = destination (decode w) ∧ destination (decode w) ≠ 0#5 ↔ targets w r = true := by
  rw [destination_decode, targets]
  cases isAluWord w with
  | false => simp
  | true =>
    rw [if_pos rfl, Bool.true_and, beq_iff_eq]
    exact ⟨fun h => h.1.symm, fun h => ⟨h.symm, h ▸ hr⟩⟩

/-- On an ALU word the wired ALU computes the decoded instruction's value (42_alu.md R130, R134). -/
theorem aluOfControl_eq_resultOf {w : Word} (h : isAluWord w = true) (cells : Vector Word 31) :
    aluOfControl (decodeControl w true) cells = resultOf (decode w) cells := by
  rw [aluOfControl, decodeControl_high]
  by_cases himm : fOpcode w = Config.opcodeImm
  · rw [decode_of_opcodeImm himm, (Bits.eq_iff _ _).mpr himm]
    exact alu_immediateMode_eq_resultOf w cells _
  · have hreg : fOpcode w = Config.opcodeReg := by simpa [isAluWord_eq, himm] using h
    have hmode : Bits.eq (fOpcode w) Config.opcodeImm = false := by rw [Bits.eq_eq_decide, decide_eq_false himm]
    rw [decode_of_opcodeReg hreg, hmode]
    exact alu_registerMode_eq_resultOf w cells (modeBit_fImm12 w)

/-- Settles O19: reset clears, an executing step commits the ALU's result where the line is asserted, and with enable
low no line is. -/
theorem registerCellUpdate : Obligations.RegisterCellUpdate := by
  intro s
  cases hrst : (currentInput s).rst with
  | true =>
    obtain ⟨t, hstep, -, hregs⟩ := step_reset_clears hrst
    exact ⟨t, hstep, fun i _ => hregs i⟩
  | false =>
    cases hen : (currentInput s).en with
    | false => exact ⟨_, step_of_hold hrst hen, fun i _ => readReg_advanceInput s i⟩
    | true =>
      obtain ⟨t, hstep, -, hregs⟩ := step_executes_commits ⟨hen, hrst⟩
      refine ⟨t, hstep, fun i hi => ?_⟩
      -- On the decoder's outputs the line of R202 is `targets`, and the ALU is wired as `aluOfControl`.
      change _ = if targets s.latch i = true then aluOfControl (decodeControl s.latch true) s.cells else readReg s i
      simp only [hregs, committed_iff_targets hi]
      cases htarget : targets s.latch i with
      | false => rfl
      | true =>
        obtain ⟨halu, -⟩ := Bool.and_eq_true_iff.mp htarget
        rw [aluOfControl_eq_resultOf halu]

/-! ### x0 -/

/-- Settles O29: such a word's destination is x0, which has no cell to commit to and reads the constant zero. -/
theorem registerZeroImmutable : Obligations.RegisterZeroImmutable := by
  constructor
  · intro w s (hrd : fRd w = 0#5)
    have hx0 : destination (decode w) = 0#5 := by rw [destination_decode, hrd, ite_self]
    rw [exec_eq_commit, hx0, writeReg_x0]
  · intro s
    obtain ⟨t, hstep, -, -⟩ := step_latch_inputs s
    exact ⟨t, hstep, readReg_x0 s, readReg_x0 t⟩

end Sys2Proof.Machine
end

section

namespace Sys2Proof.Machine

/-! ### The three kinds of step (47_step.md R220, R222, R224) -/

/-- Settles O13: an executing step is `latchAfter` of the instruction's outcome, which keeps a stop a stop. -/
theorem stepRunsDecodedInstruction : Obligations.StepRunsDecodedInstruction := by
  rintro s _ hen hrst rfl
  rw [step_of_executes ⟨hen, hrst⟩]
  refine ⟨fun t h => ?_, fun f h => ?_, fun r h => ?_⟩ <;> rw [h]
  · rfl
  · exact latchAfter_fault _ f
  · exact latchAfter_refused _ r

/-- Settles O16: each of the step's cases answers a next state, and every instruction is one commit. -/
theorem everyStepCompletes : Obligations.EveryStepCompletes :=
  ⟨fun s => let ⟨t, hstep, _⟩ := step_latch_inputs s; ⟨t, hstep⟩, fun i s => ⟨_, exec_eq_commit i s⟩⟩

/-- Settles O21: such a step consumes its input and nothing else. -/
theorem enableLowHoldsState : Obligations.EnableLowHoldsState := fun s hen hrst =>
  ⟨_, step_of_hold hrst hen, advanceInput_latch s, advanceInput_cells s, advanceInput_inputs s⟩

/-! ### A word's commit among the other updates of the state -/

theorem commitWord_eq (s : State) (w : Word) :
    commitWord s w = writeReg s (destination (decode w)) (resultOf (decode w) s.cells) := by
  rw [commitWord, exec_eq_commit]

theorem exec_decode_eq_commitWord (s : State) (w : Word) : exec (decode w) s = .next (commitWord s w) := by
  rw [exec_eq_commit, commitWord_eq]

theorem commitWord_supply (s : State) (ps : List StepInput) (w : Word) :
    commitWord (supply s ps) w = supply (commitWord s w) ps := by
  rw [commitWord_eq, commitWord_eq, writeReg_supply, supply_cells]

theorem commitWord_loadLatch (s : State) (v w : Word) :
    commitWord (loadLatch s v) w = loadLatch (commitWord s w) v := by
  rw [commitWord_eq, commitWord_eq, writeReg_loadLatch, loadLatch_cells]

/-- Supplying inputs and loading the latch commute: they are different fields. -/
theorem supply_loadLatch (s : State) (w : Word) (ps : List StepInput) :
    supply (loadLatch s w) ps = loadLatch (supply s ps) w := rfl

theorem commitWord_zero (s : State) : commitWord s 0x00000000#32 = s := by
  obtain ⟨hnop, -⟩ := firstStepAfterResetIsNoOp
  rw [commitWord, hnop]
  rfl

theorem foldl_commitWord_supply (s : State) (ps : List StepInput) (ws : List Word) :
    ws.foldl commitWord (supply s ps) = supply (ws.foldl commitWord s) ps :=
  List.foldl_hom (supply · ps) fun x w => commitWord_supply x ps w

/-! ### A run over supplied inputs is a fold over them -/

/-- What one step does to the core's own state, given its input (47_step.md R220). -/
def afterInput (s : State) (p : StepInput) : State :=
  if p.rst then resetEdge s
  else if p.en then loadLatch (commitWord s s.latch) p.instrIn
  else s

theorem afterInput_reset (s : State) {p : StepInput} (hrst : p.rst = true) : afterInput s p = resetEdge s := if_pos hrst

theorem afterInput_enabled (s : State) {p : StepInput} (hen : p.en = true) (hrst : p.rst = false) :
    afterInput s p = loadLatch (commitWord s s.latch) p.instrIn := by
  simp [afterInput, hen, hrst]

theorem afterInput_low (s : State) {p : StepInput} (h : p.en = false ∧ p.rst = false) : afterInput s p = s := by
  simp [afterInput, h.1, h.2]

/-- A step on a supplied input: `afterInput`, and the input is consumed. -/
theorem step_supply_cons (s : State) (p : StepInput) (ps : List StepInput) :
    step (supply s (p :: ps)) = .next (supply (afterInput s p) ps) := by
  have hcur : currentInput (supply s (p :: ps)) = p := rfl
  have hadv : advanceInput (supply s (p :: ps)) = supply s ps := rfl
  cases hrst : p.rst with
  | true =>
    rw [step_of_reset (hcur ▸ hrst), hadv, afterInput_reset s hrst]
    rfl
  | false =>
    cases hen : p.en with
    | false => rw [step_of_hold (hcur ▸ hrst) (hcur ▸ hen), hadv, afterInput_low s ⟨hen, hrst⟩]
    | true =>
      rw [step_of_executes ⟨hcur ▸ hen, hcur ▸ hrst⟩, hcur, hadv, exec_decode_eq_commitWord, commitWord_supply,
        afterInput_enabled s hen hrst]
      rfl

theorem runSteps_supply_append (s : State) (ps qs : List StepInput) :
    runSteps ps.length (supply s (ps ++ qs)) = .next (supply (ps.foldl afterInput s) qs) := by
  induction ps generalizing s with
  | nil => rfl
  | cons p ps ih =>
    rw [List.length_cons, List.cons_append, runSteps_succ _ (step_supply_cons s p (ps ++ qs)), ih, List.foldl_cons]

theorem runSteps_supply (s : State) (ps : List StepInput) :
    runSteps ps.length (supply s ps) = .next (supply (ps.foldl afterInput s) []) := by
  simpa using runSteps_supply_append s ps []

theorem foldl_afterInput_low (s : State) {lows : List StepInput} (h : ∀ p ∈ lows, p.en = false ∧ p.rst = false) :
    lows.foldl afterInput s = s := by
  induction lows with
  | nil => rfl
  | cons p ps ih =>
    rw [List.foldl_cons, afterInput_low s (h p List.mem_cons_self), ih fun q hq => h q (List.mem_cons_of_mem p hq)]

/-- Settles O22: both runs are folds over their inputs, and the block's part of the fold is the identity. -/
theorem enableLowStepsTransparent : Obligations.EnableLowStepsTransparent := by
  intro s xs lows ys hlow
  have hwith := runSteps_supply s (xs ++ lows ++ ys)
  have hwithout := runSteps_supply s (xs ++ ys)
  simp only [List.length_append, List.foldl_append, foldl_afterInput_low _ hlow] at hwith hwithout
  rw [hwith, hwithout]

/-- Settles O27: the presenting step loads the word, the enable-low steps fold to the identity, and the next enabled
step commits the word latched. -/
theorem presentedWordRunsInNextEnabledStep : Obligations.PresentedWordRunsInNextEnabledStep := by
  intro s p q lows rest hpen hprst hlow hqen hqrst
  have hpresent := step_supply_cons s p (lows ++ q :: rest)
  rw [afterInput_enabled s hpen hprst] at hpresent
  have hrun := runSteps_supply_append (loadLatch (commitWord s s.latch) p.instrIn) (lows ++ [q]) rest
  rw [List.foldl_append, foldl_afterInput_low _ hlow, List.foldl_cons, List.foldl_nil, afterInput_enabled _ hqen hqrst,
    List.append_assoc, List.length_append] at hrun
  refine ⟨supply (commitWord s s.latch) (lows ++ q :: rest), _, _, ?_, hpresent, exec_decode_eq_commitWord _ _, rfl, ?_⟩
  · rw [exec_decode_eq_commitWord, commitWord_supply]
  · refine hrun.trans ?_
    rw [supply_loadLatch, commitWord_loadLatch, commitWord_loadLatch, commitWord_supply]
    rfl

/-! ### The canonical driver (47_step.md R226) -/

/-- Presenting words one a step: each runs in the step after its own, so the last is latched and has not run. -/
theorem foldl_afterInput_present (s : State) (us : List Word) (w : Word) :
    ((us ++ [w]).map present).foldl afterInput s = loadLatch (us.foldl commitWord (commitWord s s.latch)) w := by
  induction us using List.reverseRecOn generalizing w with
  | nil => rfl
  | append_singleton us u ih =>
    rw [List.map_append, List.foldl_append, ih, List.map_singleton, List.foldl_cons, List.foldl_nil,
      afterInput_enabled _ (show (present w).en = true from rfl) rfl, loadLatch_latch, commitWord_loadLatch,
      List.foldl_append]
    rfl

theorem take_succ_append_singleton {α : Type} (xs : List α) (d : α) {k : Nat} (hk : k ≤ xs.length) :
    (xs ++ [d]).take (k + 1) = xs.take k ++ [xs.getD k d] := by
  rcases hk.eq_or_lt with rfl | hlt
  · simp
  · rw [List.take_append_of_le_length hlt, List.take_succ_eq_append_getElem hlt, List.getD_eq_getElem _ d hlt]

/-- The first k + 2 inputs of the canonical driver: the reset, the first k words, and the next word or the drain. -/
theorem take_canonicalDriver (ws : List Word) (rest : List StepInput) {k : Nat} (hk : k ≤ ws.length) :
    (canonicalDriver ws ++ rest).take (k + 2) =
      resetInput :: (ws.take k ++ [ws.getD k 0x00000013#32]).map present := by
  have hdriver : canonicalDriver ws = resetInput :: (ws ++ [0x00000013#32]).map present := by simp [canonicalDriver]
  have hlen : k + 1 ≤ ((ws ++ [0x00000013#32]).map present).length := by simpa using hk
  rw [hdriver, List.cons_append, List.take_succ_cons, List.take_append_of_le_length hlen, ← List.map_take,
    take_succ_append_singleton ws _ hk]

/-- Settles O28: the run folds the driver's first k + 2 inputs from the state; the reset leaves the zero word latched,
whose commit changes nothing, and the words presented commit in order. -/
theorem canonicalDriverRunsEveryWord : Obligations.CanonicalDriverRunsEveryWord := by
  intro s ws rest k hk
  have hrun := runSteps_supply_append s ((canonicalDriver ws ++ rest).take (k + 2))
    ((canonicalDriver ws ++ rest).drop (k + 2))
  have hlen : ((canonicalDriver ws ++ rest).take (k + 2)).length = k + 2 := by
    simp [take_canonicalDriver ws rest hk, hk]
  rw [List.take_append_drop, hlen, take_canonicalDriver ws rest hk, List.foldl_cons,
    afterInput_reset s (show resetInput.rst = true from rfl), foldl_afterInput_present, resetEdge_latch,
    commitWord_zero, supply_loadLatch, ← foldl_commitWord_supply] at hrun
  exact hrun

end Sys2Proof.Machine
end

section

namespace Sys2Proof.Machine

/-! ### A held reset (70_reset_and_hazards.md R260, R263) -/

/-- The edge leaves nothing for a second reset to clear. -/
theorem resetEdge_resetEdge (s : State) : resetEdge (resetEdge s) = resetEdge s := rfl

theorem foldl_afterInput_resetEdge (s : State) {ps : List StepInput} (h : ∀ p ∈ ps, p.rst = true) :
    ps.foldl afterInput (resetEdge s) = resetEdge s := by
  induction ps with
  | nil => rfl
  | cons p ps ih =>
    rw [List.foldl_cons, afterInput_reset _ (h p List.mem_cons_self), resetEdge_resetEdge,
      ih fun q hq => h q (List.mem_cons_of_mem p hq)]

/-- Of the state before, the edge keeps the driver's fields only. -/
theorem supply_resetEdge (s : State) (qs : List StepInput) :
    supply (resetEdge s) qs = { State.reset with inputs := qs, unsupplied := s.unsupplied } := rfl

/-- Settles O25: the run is a fold over its inputs; the first resets, and the others find nothing to clear. -/
theorem heldResetIsOneReset : Obligations.HeldResetIsOneReset := by
  intro s ps qs hne hrst
  obtain ⟨p, ps, rfl⟩ := List.exists_cons_of_ne_nil hne
  rw [runSteps_supply_append, List.foldl_cons, afterInput_reset s (hrst p List.mem_cons_self),
    foldl_afterInput_resetEdge s fun q hq => hrst q (List.mem_cons_of_mem p hq), supply_resetEdge]

/-- Settles O23: reset is looked at before enable, and its edge does not read the words. -/
theorem resetStepClears : Obligations.ResetStepClears := fun _ hrst => step_reset_clears hrst

/-! ### The state after reset (70_reset_and_hazards.md R262) -/

theorem reset_latch : State.reset.latch = 0#32 := rfl

theorem reset_inputs : State.reset.inputs = [] := rfl

/-- The zero word's fields select register mode, the plain ADD and x0 on both ports. -/
theorem aluOfControl_reset : aluOfControl (decodeControl State.reset.latch true) State.reset.cells = 0#32 := by
  rw [aluOfControl_high, readReg_reset, readReg_reset, reset_latch]
  decide

/-- Settles O24: the gated output is zero, and the ALU's own result on the zero word is zero too. -/
theorem resetStateValues : Obligations.ResetStateValues := by
  refine ⟨reset_latch, readReg_reset, fun reading en => ?_⟩
  cases en with
  | false => exact aluResultOutput_low reading State.reset
  | true => rw [aluResultOutput_high, aluOfControl_reset, ite_self]

/-! ### The invariants hold at reset -/

/-- The zero word is no ALU word, so it asserts no write-enable line. -/
theorem targets_zero (r : RegIndex) : targets 0#32 r = false := by
  have hnon : isAluWord 0#32 = false := by decide
  rw [targets, hnon, Bool.false_and]

/-- Settles O48: the latched zero word writes no register, and no input is supplied. -/
theorem resetShelters : Obligations.ResetShelters := by
  refine fun r => ⟨readReg_reset r, targets_zero r, ?_⟩
  rw [reset_inputs]
  exact List.forall_mem_nil _

/-- Settles O50: the latched zero word is canonical, and no input is supplied. -/
theorem resetIsCanonicalStream : Obligations.ResetIsCanonicalStream := by
  refine ⟨canonicalWord_zero, ?_⟩
  rw [reset_inputs]
  exact List.forall_mem_nil _

end Sys2Proof.Machine
end

section

namespace Sys2Proof.Machine

/-! ### The step as the wired datapath (47_step.md R220) -/

/-- A step consumes its input and does nothing else to the driver's fields. -/
theorem step_driverFields {s t : State} (hstep : step s = .next t) :
    t.inputs = (advanceInput s).inputs ∧ t.unsupplied = (advanceInput s).unsupplied := by
  cases hrst : (currentInput s).rst with
  | true =>
    rw [step_of_reset hrst] at hstep
    cases hstep
    exact ⟨rfl, rfl⟩
  | false =>
    cases hen : (currentInput s).en with
    | false =>
      rw [step_of_hold hrst hen] at hstep
      cases hstep
      exact ⟨rfl, rfl⟩
    | true =>
      rw [step_eq_commit ⟨hen, hrst⟩] at hstep
      cases hstep
      exact ⟨writeReg_inputs .., writeReg_unsupplied ..⟩

/-- A register other than x0 is the cell its index less one numbers (46_regfile_readmux.md R205). -/
theorem exists_cell_of_ne_x0 {i : RegIndex} (hi : i ≠ 0#5) : ∃ k : Fin 31, i = BitVec.ofNat 5 (k.val + 1) := by
  have hpos : i.toNat ≠ 0 := fun h => hi (BitVec.eq_of_toNat_eq h)
  have hlt : i.toNat < 32 := i.isLt
  refine ⟨⟨i.toNat - 1, by omega⟩, BitVec.eq_of_toNat_eq ?_⟩
  simp only [BitVec.toNat_ofNat]
  omega

theorem readReg_cell (s : State) (k : Fin 31) : readReg s (BitVec.ofNat 5 (k.val + 1)) = s.cells[k] := by
  have hk : (BitVec.ofNat 5 (k.val + 1)).toNat = k.val + 1 := by
    rw [BitVec.toNat_ofNat]
    omega
  rw [readReg, hk]
  exact selectRegister_succ s.cells k.val k.isLt

theorem readReg_datapathStep_cell (p : StepInput) (s : State) (k : Fin 31) :
    readReg (datapathStep p s) (BitVec.ofNat 5 (k.val + 1)) =
      cellNext p.rst (writeEnable (decodeControl s.latch p.en) k)
        (aluOfControl (decodeControl s.latch p.en) s.cells) s.cells[k] := by
  rw [readReg_cell]
  exact Vector.getElem_ofFn ..

theorem step_eq_datapathStep (s : State) : step s = .next (datapathStep (currentInput s) s) := by
  obtain ⟨t, hstep, hregs⟩ := registerCellUpdate s
  obtain ⟨t', hstep', hlatch, -⟩ := step_latch_inputs s
  obtain rfl : t' = t := by simpa [hstep'] using hstep
  obtain ⟨hinputs, hunsupplied⟩ := step_driverFields hstep
  rw [hstep]
  congr 1
  refine State.ext_readReg (fun i => ?_) hlatch hinputs hunsupplied
  by_cases hi : i = 0#5
  · rw [hi, readReg_x0, readReg_x0]
  · obtain ⟨k, rfl⟩ := exists_cell_of_ne_x0 hi
    rw [hregs _ hi, readReg_datapathStep_cell, readReg_cell]
    -- Both sides are the cell rule now, the demultiplexer's line and the wired ALU unfolded on the left.
    rfl

/-- Settles O17: register by register the step is the cell rule (R201), which is the datapath's; the output clause is
the general rule of R139 with the ALU wired to the latched word's fields. -/
theorem stepRefinesDatapath : Obligations.StepRefinesDatapath := by
  refine fun s => ⟨step_eq_datapathStep s, fun i => Vector.getElem_ofFn .., ?_⟩
  change aluResultOutput Config.nonAluResult (currentInput s).en s = _
  cases hen : (currentInput s).en with
  | false => simp [aluResultOutput_low]
  | true =>
    rw [aluResultOutput_high, aluOfControl_high]
    simp only [true_and]
    rfl

end Sys2Proof.Machine
end

section

namespace Sys2Proof.Machine

/-! ### Fields under a mask -/

/-- Two words that agree under a mask agree in every field the mask covers. -/
theorem extractLsb'_eq_of_and_eq {w w' mask : Word} (h : w &&& mask = w' &&& mask) (start len : Nat)
    (hcover : mask.extractLsb' start len = BitVec.allOnes len := by decide) :
    w.extractLsb' start len = w'.extractLsb' start len := by
  simpa [BitVec.extractLsb'_and, hcover] using congrArg (BitVec.extractLsb' start len) h

/-! ### The row that selects a word (30_encoding.md R60)

Every row looks at opcode, funct3 and mode at most, so which rows select a word is decided on the word with every other
bit cleared. -/

/-- The bits of opcode, funct3 and mode cover every row's mask. -/
theorem modeMask_and_mask : ∀ r ∈ aluRows, 0x4000707F#32 &&& r.mask = r.mask := by decide

theorem selects_and_modeMask {r : OpcodeRow} (hr : r ∈ aluRows) (w : Word) :
    r.selects (w &&& 0x4000707F#32) = r.selects w := by
  rw [OpcodeRow.selects, OpcodeRow.selects, BitVec.and_assoc, modeMask_and_mask r hr]

/-- The decoder chooses the constructor by opcode, funct3 and mode. -/
theorem row_decode_congr {w w' : Word} (ho : fOpcode w = fOpcode w') (hf : fFunct3 w = fFunct3 w')
    (hm : fMode w = fMode w') : (decode w).row = (decode w').row := by
  simp only [decode, decodeImm, decodeReg, ho, hf, hm]
  split
  · cases AluOp.ofBits (fFunct3 w') with
    | sr => cases fMode w' <;> rfl
    | _ => rfl
  · split
    · cases AluOp.ofBits (fFunct3 w') with
      | add | sr => cases fMode w' <;> rfl
      | _ => rfl
    · rfl

theorem row_decode_and_modeMask (w : Word) : (decode (w &&& 0x4000707F#32)).row = (decode w).row := by
  obtain ⟨ho, hf, hm⟩ := fields_of_modeMask (w := w) rfl
  exact (row_decode_congr ho hf hm).symm

/-- The word with the given opcode, funct3 and mode and every other bit zero. -/
def keyWord (opc : Opcode) (f : Funct3) (mode : Bool) : Word :=
  (BitVec.ofBool mode).setWidth 32 <<< 30 ||| f.setWidth 32 <<< 12 ||| opc.setWidth 32

/-- The 16 funct3 and mode values under each ALU opcode. -/
theorem filter_selects_keyWord :
    ∀ opc ∈ [Config.opcodeImm, Config.opcodeReg], ∀ (f : Funct3) (mode : Bool),
      aluRows.filter (·.selects (keyWord opc f mode)) = (decode (keyWord opc f mode)).row.toList := by decide

theorem filter_selects_of_alu {w : Word} (h : isAluWord w = true) :
    aluRows.filter (·.selects w) = (decode w).row.toList := by
  have hopc : fOpcode w ∈ [Config.opcodeImm, Config.opcodeReg] := by simpa [isAluWord_eq] using h
  have hkey : w &&& 0x4000707F#32 = keyWord (fOpcode w) (fFunct3 w) (fMode w) := and_modeMask w
  rw [← List.filter_congr fun r hr => selects_and_modeMask hr w, ← row_decode_and_modeMask, hkey]
  exact filter_selects_keyWord _ hopc _ _

/-- Every row's mask covers the opcode, and its match bits hold one of the two ALU opcodes. -/
theorem row_fixes_aluOpcode :
    ∀ r ∈ aluRows, r.mask.extractLsb' 0 7 = BitVec.allOnes 7 ∧ isAluWord r.matchBits = true := by decide

theorem isAluWord_of_selects {r : OpcodeRow} (hr : r ∈ aluRows) {w : Word} (h : r.selects w = true) :
    isAluWord w = true := by
  obtain ⟨hmask, halu⟩ := row_fixes_aluOpcode r hr
  have hagree : w &&& r.mask = (w &&& r.mask) &&& r.mask := by rw [BitVec.and_assoc, BitVec.and_self]
  have hopc : fOpcode w = fOpcode (w &&& r.mask) := extractLsb'_eq_of_and_eq hagree 0 7 hmask
  rw [← beq_iff_eq.mp h] at halu
  rw [isAluWord_eq, hopc]
  exact halu

/-- Settles O34: an ALU word's opcode, funct3 and mode decide both sides; any other word has an opcode that no row
selects. -/
theorem exactlyOneRowSelectsWord : Obligations.ExactlyOneRowSelectsWord := by
  refine ⟨rfl, fun w => ?_⟩
  cases halu : isAluWord w with
  | true => exact filter_selects_of_alu halu
  | false =>
    rw [decode_of_nonAlu halu]
    exact List.filter_eq_nil_iff.mpr fun r hr hsel => by simp [isAluWord_of_selects hr hsel] at halu

/-! ### Words that agree where they are decoded (30_encoding.md R57) -/

/-- Agreement on the fields within instr[24:0]: all that a register form or a shift by an immediate decodes besides
mode. -/
structure SameFields (w w' : Word) : Prop where
  opcode : fOpcode w = fOpcode w'
  rd : fRd w = fRd w'
  funct3 : fFunct3 w = fFunct3 w'
  rs1 : fRs1 w = fRs1 w'
  rs2 : fRs2 w = fRs2 w'

theorem sameFields_of_and_eq {w w' : Word} (h : w &&& 0x01FFFFFF#32 = w' &&& 0x01FFFFFF#32) : SameFields w w' where
  opcode := extractLsb'_eq_of_and_eq h 0 7
  rd := extractLsb'_eq_of_and_eq h 7 5
  funct3 := extractLsb'_eq_of_and_eq h 12 3
  rs1 := extractLsb'_eq_of_and_eq h 15 5
  rs2 := extractLsb'_eq_of_and_eq h 20 5

theorem sameFields_fMode_of_and_eq {w w' : Word} (h : w &&& 0x41FFFFFF#32 = w' &&& 0x41FFFFFF#32) :
    SameFields w w' ∧ fMode w = fMode w' := by
  constructor
  · apply sameFields_of_and_eq
    have hsub : (0x01FFFFFF#32 : Word) = 0x41FFFFFF#32 &&& 0x01FFFFFF#32 := by decide
    rw [hsub, ← BitVec.and_assoc, ← BitVec.and_assoc, h]
  · simpa [fMode] using congrArg (BitVec.getLsbD · 30) h

section Congr
variable {w w' : Word} (h : SameFields w w')
include h

/-- In register mode the mode bit counts for ADD/SUB and the right shifts alone. -/
theorem resultOf_decodeReg_congr
    (hmode : AluOp.ofBits (fFunct3 w) = .add ∨ AluOp.ofBits (fFunct3 w) = .sr → fMode w = fMode w')
    (cells : Vector Word 31) : resultOf (decodeReg w) cells = resultOf (decodeReg w') cells := by
  unfold decodeReg
  rw [← h.funct3, ← h.rd, ← h.rs1, ← h.rs2]
  generalize AluOp.ofBits (fFunct3 w) = op at hmode
  cases op with
  | add | sr =>
    rw [← hmode (by decide)]
    cases fMode w <;> rfl
  | _ => rfl

/-- A shift by an immediate reads the amount within instr[24:0], and a right shift the mode bit. -/
theorem resultOf_decodeImm_congr
    (hshift : AluOp.ofBits (fFunct3 w) = .sll ∨ AluOp.ofBits (fFunct3 w) = .sr ∧ fMode w = fMode w')
    (cells : Vector Word 31) : resultOf (decodeImm w) cells = resultOf (decodeImm w') cells := by
  unfold decodeImm
  rw [← h.funct3, ← h.rd, ← h.rs1, ← h.rs2]
  obtain hop | ⟨hop, hmode⟩ := hshift
  · rw [hop]
    rfl
  · rw [hop, ← hmode]
    cases fMode w <;> rfl

theorem exec_decode_congr (hres : ∀ cells, resultOf (decode w) cells = resultOf (decode w') cells) (s : State) :
    exec (decode w) s = exec (decode w') s := by
  rw [exec_eq_commit, exec_eq_commit, hres, destination_decode, destination_decode, isAluWord_eq, isAluWord_eq,
    h.opcode, h.rd]

theorem exec_decode_congr_reg (ho : fOpcode w = Config.opcodeReg)
    (hmode : AluOp.ofBits (fFunct3 w) = .add ∨ AluOp.ofBits (fFunct3 w) = .sr → fMode w = fMode w') (s : State) :
    exec (decode w) s = exec (decode w') s := by
  refine exec_decode_congr h (fun cells => ?_) s
  rw [decode_of_opcodeReg ho, decode_of_opcodeReg (h.opcode ▸ ho)]
  exact resultOf_decodeReg_congr h hmode cells

theorem exec_decode_congr_shiftImm (ho : fOpcode w = Config.opcodeImm)
    (hshift : AluOp.ofBits (fFunct3 w) = .sll ∨ AluOp.ofBits (fFunct3 w) = .sr ∧ fMode w = fMode w') (s : State) :
    exec (decode w) s = exec (decode w') s := by
  refine exec_decode_congr h (fun cells => ?_) s
  rw [decode_of_opcodeImm ho, decode_of_opcodeImm (h.opcode ▸ ho)]
  exact resultOf_decodeImm_congr h hshift cells

end Congr

/-- Operations and funct3 values correspond one to one (30_encoding.md R59). -/
theorem ofBits_eq_iff (f : Funct3) (op : AluOp) : AluOp.ofBits f = op ↔ f = op.toBits :=
  ⟨fun h => h ▸ (toBits_ofBits f).symm, fun h => h ▸ ofBits_toBits op⟩

/-- Settles O35: an instruction's outcome is fixed by the fields the masks keep, the mode bit where its operation reads
it; funct3 says which operation that is. -/
theorem undecodedBitsHaveNoEffect : Obligations.UndecodedBitsHaveNoEffect := by
  refine fun w w' s => ⟨fun ho h => ?_, fun ho hadd hsr h => ?_, fun ho hsr h => ?_, fun ho hsll h => ?_⟩
  · obtain ⟨hfields, hmode⟩ := sameFields_fMode_of_and_eq h
    exact exec_decode_congr_reg hfields ho (fun _ => hmode) s
  · refine exec_decode_congr_reg (sameFields_of_and_eq h) ho (fun hop => ?_) s
    rw [ofBits_eq_iff, ofBits_eq_iff] at hop
    exact absurd hop (not_or.mpr ⟨hadd, hsr⟩)
  · obtain ⟨hfields, hmode⟩ := sameFields_fMode_of_and_eq h
    exact exec_decode_congr_shiftImm hfields ho (.inr ⟨(ofBits_eq_iff _ .sr).mpr hsr, hmode⟩) s
  · exact exec_decode_congr_shiftImm (sameFields_of_and_eq h) ho (.inl ((ofBits_eq_iff _ .sll).mpr hsll)) s

/-! ### Words written out -/

/-- Settles O36: each word is the instruction's encoding, undecoded bits included, so the round trip decodes it. -/
theorem encodedWordsDecode : Obligations.EncodedWordsDecode := by
  refine ⟨?_, ?_, ?_, ?_, ?_, ?_, ?_, ?_⟩ <;> exact decode_eq_of_encode_eq (by decide) (by decide)

end Sys2Proof.Machine
end

section

namespace Sys2Proof.Machine

variable {n : Nat}

/-! ### Literals and slices (40_bitword.md R80 to R82) -/

namespace BitWord

/-- The range in which a literal of width n is built (R81). -/
abbrev LiteralFits (n : Nat) (v : Int) : Prop := -(2 ^ (n - 1) : Int) ≤ v ∧ v < 2 ^ n

theorem literal_of_fits (hn : 1 ≤ n) {v : Int} (h : LiteralFits n v) : literal n v = .next ⟨n, BitVec.ofInt n v⟩ := by
  rw [literal, if_neg (by omega), if_pos h]

theorem literal_of_not_fits (hn : 1 ≤ n) {v : Int} (h : ¬LiteralFits n v) :
    literal n v = .refused .literalOutOfRange := by
  rw [literal, if_neg (by omega), if_neg h]

/-- A literal's pattern is its value modulo 2^n. -/
theorem toNumber_ofInt (n : Nat) (v : Int) : ((⟨n, BitVec.ofInt n v⟩ : BitWord).toNumber : Int) = v % 2 ^ n := by
  rw [toNumber, BitVec.toNat_ofInt, Int.toNat_of_nonneg (Int.emod_nonneg v (by positivity))]
  norm_cast

section Slice
variable {a : BitWord} {hi lo : Nat}

theorem slice_of_bounds (h : hi < a.width ∧ lo ≤ hi) :
    a.slice hi lo = .next ⟨hi - lo + 1, a.bits.extractLsb hi lo⟩ := if_pos h

theorem slice_of_not_bounds (h : ¬(hi < a.width ∧ lo ≤ hi)) : a.slice hi lo = .fault .sliceOutOfRange := if_neg h

theorem getLsbD_extractLsb_of_lt (b : BitVec n) {j : Nat} (hj : j < hi - lo + 1) :
    (b.extractLsb hi lo).getLsbD j = b.getLsbD (lo + j) := by
  rw [BitVec.getLsbD_extractLsb, decide_eq_true hj, Bool.true_and]

end Slice

end BitWord

/-- Settles O45: both are decided by their bounds; a literal holds its value modulo 2^n, a slice the bits from lo up. -/
theorem literalAndSliceBounds : Obligations.LiteralAndSliceBounds := by
  refine ⟨fun n v hn => ⟨fun h => ?_, BitWord.literal_of_not_fits hn⟩,
    fun a hi lo => ⟨fun h => ?_, BitWord.slice_of_not_bounds⟩⟩
  · exact ⟨_, BitWord.literal_of_fits hn h, rfl, BitWord.toNumber_ofInt n v⟩
  · exact ⟨_, BitWord.slice_of_bounds h, rfl, fun _ hj => BitWord.getLsbD_extractLsb_of_lt a.bits hj⟩

/-! ### The laws of 40_bitword.md R98 -/

namespace BitWord

theorem wf_iff (a : BitWord) : a.wf = true ↔ 1 ≤ a.width := decide_eq_true_iff

theorem wraparoundLaw : WraparoundLaw := by
  rintro ⟨n, x⟩ ⟨m, y⟩ - (rfl : n = m)
  exact ⟨_, binary_sameWidth .., rfl, BitVec.toNat_add x y⟩

theorem signExtensionRoundTripLaw : SignExtensionRoundTripLaw := fun _ _ _ hm =>
  ⟨_, signExtend_of_le hm, rfl, BitVec.toInt_signExtend_of_le hm⟩

/-- The literal 1 fits every width (R81). -/
theorem literal_one (hn : 1 ≤ n) : literal n 1 = .next ⟨n, 1#n⟩ := by
  have hlow : (0 : Int) ≤ 2 ^ (n - 1) := by positivity
  have hhigh : (1 : Int) < 2 ^ n := one_lt_pow₀ (by norm_num) (by omega)
  rw [literal_of_fits hn ⟨by omega, hhigh⟩]
  rfl

theorem subtractionLaw : SubtractionLaw := by
  rintro ⟨n, x⟩ ⟨m, y⟩ hwf (rfl : n = m)
  have hn : 1 ≤ n := (wf_iff _).mp hwf
  refine ⟨⟨n, Bits.sub x y⟩, ⟨n, 1#n⟩, ⟨n, Bits.add (Bits.not y) 1#n⟩, binary_sameWidth .., Bits.toNat_sub x y,
    literal_one hn, binary_sameWidth .., ?_⟩
  rw [Bits.sub_eq_add_not]
  exact binary_sameWidth ..

/-- The top of a sign extension, from the operand's sign bit up, is all copies of that bit. -/
theorem signExtend_top {v : BitWord} {m : Nat} (hv : 1 ≤ v.width) (hm : v.width ≤ m) :
    ∃ r top, v.signExtend m = .next r ∧ r.slice (m - 1) (v.width - 1) = .next top ∧ top.width = m - v.width + 1 ∧
      ∀ j < top.width, top.bits.getLsbD j = v.bits.getLsbD (v.width - 1) := by
  have hbounds : m - 1 < m ∧ v.width - 1 ≤ m - 1 := by omega
  have hwidth : m - 1 - (v.width - 1) + 1 = m - v.width + 1 := by omega
  refine ⟨_, _, signExtend_of_le hm, slice_of_bounds hbounds, hwidth, fun j (hj : j < m - 1 - (v.width - 1) + 1) => ?_⟩
  rw [getLsbD_extractLsb_of_lt _ hj, Bits.getLsbD_sext (show v.width - 1 + j < m by omega)]
  split
  · rw [show v.width - 1 + j = v.width - 1 by omega]
  · rfl

theorem extensionLaw : ExtensionLaw := fun v _ hv hm =>
  ⟨⟨_, zeroExtend_of_le hm, BitVec.toNat_setWidth_of_le hm⟩, signExtend_top (v.wf_iff.mp hv) hm⟩

theorem shiftLaw : ShiftLaw := fun a amount _ _ _ =>
  ⟨Bits.toNat_shl a.bits amount.bits, Bits.toNat_shr a.bits amount.bits, Bits.toInt_sra a.bits amount.bits⟩

/-- A comparator's word is 1 exactly when its order holds, for widths of at least 1. -/
theorem toNumber_ite_eq_one_iff (hn : 1 ≤ n) (p : Prop) [Decidable p] :
    (⟨n, if p then 1#n else 0#n⟩ : BitWord).toNumber = 1 ↔ p := by
  have hone : (1#n).toNat = 1 := BitVec.toNat_one hn
  by_cases hp : p <;> simp [toNumber, hp, hone]

theorem orderLaw : OrderLaw := by
  rintro ⟨n, x⟩ ⟨m, y⟩ hwf (rfl : n = m)
  have hn : 1 ≤ n := (wf_iff _).mp hwf
  refine ⟨⟨n, Bits.ltu x y⟩, ⟨n, Bits.lts x y⟩, binary_sameWidth .., binary_sameWidth .., ?_⟩
  rw [Bits.ltu_eq, Bits.lts_eq]
  refine ⟨toNumber_ite_eq_one_iff hn _, toNumber_ite_eq_one_iff hn _, fun h => ?_⟩
  cases h
  simp [toNumber]

end BitWord

/-- Settles O54: each law is the typed primitive's value rule on two words of one width. -/
theorem primitiveLaws : Obligations.PrimitiveLaws :=
  ⟨BitWord.wraparoundLaw, BitWord.signExtensionRoundTripLaw, BitWord.subtractionLaw, BitWord.extensionLaw,
    BitWord.shiftLaw, BitWord.orderLaw⟩

end Sys2Proof.Machine
end

section

namespace Sys2Proof.Machine

/-! ### Assembled words are canonical (30_encoding.md R61) -/

/-- A word in the canonical form of one of the 19 rows is canonical. -/
theorem canonicalWord_of_mem {r : OpcodeRow} (hr : r ∈ aluRows) {w : Word} (h : r.isCanonical w = true) :
    canonicalWord w = true := by
  have hany : aluRows.any (·.isCanonical w) = true := List.any_eq_true.mpr ⟨r, hr, h⟩
  rw [canonicalWord, hany, Bool.or_true]

/-- The canonical mask of the rows with undecoded bits keeps the top field, funct3 and opcode. -/
theorem and_canonicalMask (w : Word) :
    w &&& 0xFE00707F#32 =
      (fIgnored7 w).setWidth 32 <<< 25 ||| (fFunct3 w).setWidth 32 <<< 12 ||| (fOpcode w).setWidth 32 := by
  ext k hk
  simp only [fIgnored7, fFunct3, fOpcode]
  interval_cases k <;> simp

/-- The canonical pattern of an assembled word: funct3 and opcode, under a top field where the form has one. -/
def canonicalPattern (top : BitVec 7) (op : AluOp) (opc : Opcode) : Word :=
  top.setWidth 32 <<< 25 ||| op.toBits.setWidth 32 <<< 12 ||| opc.setWidth 32

theorem canonicalWord_encodeI (imm : Imm12) (rs1 rd : RegIndex) (op : AluOp)
    (hrow : immRow (canonicalPattern 0#7 op Config.opcodeImm) ∈ aluRows) :
    canonicalWord (encodeI imm rs1 op rd) = true := by
  refine canonicalWord_of_mem hrow (beq_iff_eq.mpr ?_)
  change encodeI imm rs1 op rd &&& 0x0000707F#32 = canonicalPattern 0#7 op Config.opcodeImm
  rw [and_plainMask, fFunct3_encodeI, fOpcode_encodeI, canonicalPattern]
  simp

theorem canonicalWord_encodeR {top : BitVec 7} (f20 rs1 rd : RegIndex) {op : AluOp} {opc : Opcode}
    (hrow : ∃ r ∈ aluRows, r.canonicalMask = 0xFE00707F#32 ∧ r.canonicalMatch = canonicalPattern top op opc) :
    canonicalWord (encodeR top f20 rs1 op rd opc) = true := by
  obtain ⟨r, hr, hmask, hmatch⟩ := hrow
  refine canonicalWord_of_mem hr (beq_iff_eq.mpr ?_)
  rw [hmask, hmatch, and_canonicalMask, fIgnored7_encodeR, fFunct3_encodeR, fOpcode_encodeR, canonicalPattern]

/-! ### The mnemonics' codes (30_encoding.md R60) -/

/-- The operation of an immediate-form mnemonic. -/
def ImmMnemonic.op : ImmMnemonic → AluOp
  | .addi => .add
  | .slti => .slt
  | .sltiu => .sltu
  | .xori => .xor
  | .ori => .or
  | .andi => .and

/-- The operation of a shift-immediate mnemonic. -/
def ShiftMnemonic.op : ShiftMnemonic → AluOp
  | .slli => .sll
  | .srli | .srai => .sr

/-- instr[31:25] of a shift-immediate mnemonic's canonical word. -/
def ShiftMnemonic.top : ShiftMnemonic → BitVec 7
  | .slli | .srli => 0b0000000#7
  | .srai => 0b0100000#7

/-- The operation of a register-form mnemonic. -/
def RegMnemonic.op : RegMnemonic → AluOp
  | .add | .sub => .add
  | .sll => .sll
  | .slt => .slt
  | .sltu => .sltu
  | .xor => .xor
  | .srl | .sra => .sr
  | .or => .or
  | .and => .and

/-- instr[31:25] of a register-form mnemonic's canonical word. -/
def RegMnemonic.top (m : RegMnemonic) : BitVec 7 := if m = .sub ∨ m = .sra then 0b0100000#7 else 0b0000000#7

theorem encode_assembleImm (m : ImmMnemonic) (rd rs1 : RegIndex) (imm : Imm12) :
    encode (assembleImm m rd rs1 imm) = encodeI imm rs1 m.op rd := by cases m <;> rfl

theorem encode_assembleShift (m : ShiftMnemonic) (rd rs1 : RegIndex) (shamt : ShiftAmount) :
    encode (assembleShift m rd rs1 shamt) = encodeR m.top shamt rs1 m.op rd Config.opcodeImm := by cases m <;> rfl

theorem encode_assembleReg (m : RegMnemonic) (rd rs1 rs2 : RegIndex) :
    encode (assembleReg m rd rs1 rs2) = encodeR m.top rs2 rs1 m.op rd Config.opcodeReg := by cases m <;> rfl

/-! ### The assembled instruction -/

theorem wellFormed_assembleImm (m : ImmMnemonic) (rd rs1 : RegIndex) (imm : Imm12) :
    (assembleImm m rd rs1 imm).wellFormed = true := by cases m <;> rfl

theorem wellFormed_assembleShift (m : ShiftMnemonic) (rd rs1 : RegIndex) (shamt : ShiftAmount) :
    (assembleShift m rd rs1 shamt).wellFormed = true := by cases m <;> rfl

theorem wellFormed_assembleReg (m : RegMnemonic) (rd rs1 rs2 : RegIndex) :
    (assembleReg m rd rs1 rs2).wellFormed = true := by cases m <;> rfl

theorem canonicalWord_assembleImm (m : ImmMnemonic) (rd rs1 : RegIndex) (imm : Imm12) :
    canonicalWord (encode (assembleImm m rd rs1 imm)) = true := by
  rw [encode_assembleImm]
  exact canonicalWord_encodeI imm rs1 rd m.op (by cases m <;> decide)

theorem canonicalWord_assembleShift (m : ShiftMnemonic) (rd rs1 : RegIndex) (shamt : ShiftAmount) :
    canonicalWord (encode (assembleShift m rd rs1 shamt)) = true := by
  rw [encode_assembleShift]
  exact canonicalWord_encodeR shamt rs1 rd (by cases m <;> decide)

theorem canonicalWord_assembleReg (m : RegMnemonic) (rd rs1 rs2 : RegIndex) :
    canonicalWord (encode (assembleReg m rd rs1 rs2)) = true := by
  rw [encode_assembleReg]
  exact canonicalWord_encodeR rs2 rs1 rd (by cases m <;> decide)

/-! ### The ranges (30_encoding.md R65) -/

section Ranges
variable {v : Int}

theorem assembleImmChecked_inRange (h : -2048 ≤ v ∧ v ≤ 2047) (m : ImmMnemonic) (rd rs1 : RegIndex) :
    assembleImmChecked m rd rs1 v = .next (assembleImm m rd rs1 (BitVec.ofInt 12 v)) := if_pos h

theorem assembleImmChecked_outOfRange (h : ¬(-2048 ≤ v ∧ v ≤ 2047)) (m : ImmMnemonic) (rd rs1 : RegIndex) :
    assembleImmChecked m rd rs1 v = .refused .immediateOutOfRange := if_neg h

theorem assembleShiftChecked_inRange (h : 0 ≤ v ∧ v ≤ 31) (m : ShiftMnemonic) (rd rs1 : RegIndex) :
    assembleShiftChecked m rd rs1 v = .next (assembleShift m rd rs1 (BitVec.ofInt 5 v)) := if_pos h

theorem assembleShiftChecked_outOfRange (h : ¬(0 ≤ v ∧ v ≤ 31)) (m : ShiftMnemonic) (rd rs1 : RegIndex) :
    assembleShiftChecked m rd rs1 v = .refused .shiftAmountOutOfRange := if_neg h

theorem toInt_ofInt_imm12 (h : -2048 ≤ v ∧ v ≤ 2047) : (BitVec.ofInt 12 v).toInt = v :=
  BitVec.toInt_ofInt_eq_self (by decide) (by omega) (by omega)

theorem toNat_ofInt_shamt (h : 0 ≤ v ∧ v ≤ 31) : ((BitVec.ofInt 5 v).toNat : Int) = v := by
  rw [BitVec.toNat_ofInt]
  omega

end Ranges

/-- Settles O51: by form; the word is the layout of the mnemonic's codes, and being well formed it decodes back. -/
theorem assemblerRanges : Obligations.AssemblerRanges := by
  refine ⟨fun m rd rs1 v => ⟨fun h => ?_, fun h => assembleImmChecked_outOfRange h m rd rs1⟩,
    fun m rd rs1 v => ⟨fun h => ?_, fun h => assembleShiftChecked_outOfRange h m rd rs1⟩, fun m rd rs1 rs2 => ?_⟩
  · have hwf := wellFormed_assembleImm m rd rs1 (BitVec.ofInt 12 v)
    refine ⟨_, _, assembleImmChecked_inRange h m rd rs1, hwf, canonicalWord_assembleImm .., decodeOfEncode _ hwf,
      toInt_ofInt_imm12 h, (encode_assembleImm ..).trans ?_⟩
    cases m <;> rfl
  · have hwf := wellFormed_assembleShift m rd rs1 (BitVec.ofInt 5 v)
    refine ⟨_, _, assembleShiftChecked_inRange h m rd rs1, hwf, canonicalWord_assembleShift .., decodeOfEncode _ hwf,
      toNat_ofInt_shamt h, (encode_assembleShift ..).trans ?_⟩
    cases m <;> rfl
  · have hwf := wellFormed_assembleReg m rd rs1 rs2
    refine ⟨_, rfl, hwf, canonicalWord_assembleReg .., decodeOfEncode _ hwf, (encode_assembleReg ..).trans ?_⟩
    cases m <;> rfl

end Sys2Proof.Machine
end

section

namespace Sys2Proof.Machine

/-! ### The immediates the pseudo-instructions write -/

/-- An immediate in range stands for its integer as a 32-bit word too (30_encoding.md R55). -/
theorem immOperand_ofInt {v : Int} (h : -2048 ≤ v ∧ v ≤ 2047) : immOperand (BitVec.ofInt 12 v) = BitVec.ofInt 32 v := by
  apply BitVec.eq_of_toInt_eq
  rw [toInt_immOperand, BitVec.toInt_ofInt_eq_self (by decide) (by omega) (by omega),
    BitVec.toInt_ofInt_eq_self (by decide) (by omega) (by omega)]

theorem zero_add_immOperand {v : Int} (h : -2048 ≤ v ∧ v ≤ 2047) :
    Bits.add 0#32 (immOperand (BitVec.ofInt 12 v)) = BitVec.ofInt 32 v := by
  rw [immOperand_ofInt h, Bits.add_eq, BitVec.zero_add]

theorem add_immOperand_zero (x : Word) : Bits.add x (immOperand (BitVec.ofInt 12 0)) = x := by
  rw [immOperand_ofInt (by decide)]
  exact BitVec.add_zero x

theorem xor_immOperand_negOne (x : Word) : Bits.xor x (immOperand (BitVec.ofInt 12 (-1))) = ~~~x := by
  rw [immOperand_ofInt (by decide)]
  exact BitVec.xor_allOnes

theorem sub_from_zero (x : Word) : Bits.sub 0#32 x = -x := BitVec.zero_sub x

/-! ### The comparisons they are made of -/

/-- The only pattern below 1 is zero's. -/
theorem ltu_immOperand_one (x : Word) :
    Bits.ltu x (immOperand (BitVec.ofInt 12 1)) = if x = 0#32 then 1#32 else 0#32 := by
  have hone : (BitVec.ofInt 32 1).toNat = 1 := by decide
  have hzero : x.toNat < 1 ↔ x = 0#32 := Nat.lt_one_iff.trans (BitVec.toNat_eq (y := 0#32)).symm
  rw [immOperand_ofInt (by decide), Bits.ltu_eq, hone]
  simp only [hzero]

/-- Every pattern but zero's is above zero. -/
theorem zero_ltu (x : Word) : Bits.ltu 0#32 x = if x = 0#32 then 0#32 else 1#32 := by
  have hpos : (0#32).toNat < x.toNat ↔ ¬x = 0#32 :=
    Nat.pos_iff_ne_zero.trans (not_congr (BitVec.toNat_eq (y := 0#32)).symm)
  rw [Bits.ltu_eq]
  simp only [hpos, ite_not]

theorem lts_zero (x : Word) : Bits.lts x 0#32 = if x.toInt < 0 then 1#32 else 0#32 := Bits.lts_eq x 0#32

theorem zero_lts (x : Word) : Bits.lts 0#32 x = if 0 < x.toInt then 1#32 else 0#32 := Bits.lts_eq 0#32 x

/-! ### What a source line does -/

/-- An accepted line does what its instruction does: it commits the value the instruction computes. -/
theorem line_commits (l : SourceLine) {i : Instr} (hl : assemble l = .next i) (s : State) {v : Word}
    (hv : resultOf i s.cells = v) :
    ∃ j t, assemble l = .next j ∧ exec j s = .next t ∧ CommitsOnly (destination i) v s t :=
  ⟨i, _, hl, exec_eq_commit i s, hv ▸ commitsOnly_writeReg ..⟩

/-- nop is an ADDI to x0 (30_encoding.md R66). -/
theorem exec_nop (imm : Imm12) (s : State) : exec (.addi 0#5 0#5 imm) s = .next s := by
  rw [exec_eq_commit]
  exact congrArg _ (writeReg_x0 s _)

/-- Settles O52: each line's expansion commits one primitive's value on the source register, zero and the immediate the
expansion writes. -/
theorem pseudoInstructionResults : Obligations.PseudoInstructionResults := by
  refine ⟨fun s => ?nop, fun rd v s hlow hhigh => ?li, fun rd v h => assembleImmChecked_outOfRange h .addi rd 0#5,
    fun rd rs s => ⟨?mv, ?not, ?neg, ?seqz, ?snez, ?sltz, ?sgtz⟩, fun _ => rfl⟩
  case nop => exact ⟨_, assembleImmChecked_inRange (by decide) .addi 0#5 0#5, by decide, exec_nop _ s⟩
  case li =>
    have h : -2048 ≤ v ∧ v ≤ 2047 := ⟨hlow, hhigh⟩
    exact line_commits (.li rd v) (assembleImmChecked_inRange h .addi rd 0#5) s (zero_add_immOperand h)
  case mv =>
    exact line_commits (.mv rd rs) (assembleImmChecked_inRange (by decide) .addi rd rs) s (add_immOperand_zero _)
  case not =>
    exact line_commits (.not rd rs) (assembleImmChecked_inRange (by decide) .xori rd rs) s (xor_immOperand_negOne _)
  case neg => exact line_commits (.neg rd rs) rfl s (sub_from_zero _)
  case seqz =>
    exact line_commits (.seqz rd rs) (assembleImmChecked_inRange (by decide) .sltiu rd rs) s (ltu_immOperand_one _)
  case snez => exact line_commits (.snez rd rs) rfl s (zero_ltu _)
  case sltz => exact line_commits (.sltz rd rs) rfl s (lts_zero _)
  case sgtz => exact line_commits (.sgtz rd rs) rfl s (zero_lts _)

end Sys2Proof.Machine
end
